-- ==== Sys2Proof/Word.lean ====
section
/-! DEFINITION. Words and bytes (00_scope.md rules R6, R7): an operand or result word has 32 bits, a channel and a store byte
have 8. Bits are numbered from 0, the least significant. -/

namespace Sys2Proof

/-- An operand word or the result word: 32 bits (rule R60). -/
abbrev Word := BitVec 32

/-- A byte of the pixel store, or one channel: 8 bits (rule R40). -/
abbrev Byte := BitVec 8

end Sys2Proof
end

