-- ==== Sys2Proof/Syntax.lean ====
section
/-! DEFINITION. The instructions: one constructor per row of the opcode map (30_encoding.md rule R63), each with the operand
words that rule R62 lists for it, in the document's argument order. -/

namespace Sys2Proof

/-- One operation of the colour unit with its operand words (rule R62). Operand words that rule R62 marks "-" are no fields. -/
inductive Instr where
  /-- `PACKRGB`: red, green, blue (rule R81). -/
  | packrgb (r g b : Word)
  /-- `PACKARGB`: alpha, red, green, blue (rule R82). -/
  | packargb (a r g b : Word)
  /-- `UNPACKB`: a packed colour (rule R84). -/
  | unpackb (c : Word)
  /-- `UNPACKG`: a packed colour (rule R85). -/
  | unpackg (c : Word)
  /-- `UNPACKR`: a packed colour (rule R86). -/
  | unpackr (c : Word)
  /-- `UNPACKA`: a packed colour (rule R87). -/
  | unpacka (c : Word)
  /-- `HSV`: the default bits `SD`, `VD`, then hue, sat, val (rule R91). -/
  | hsv (sd vd : Bool) (hue sat val : Word)
  /-- `FADE`: a colour and a brightness (rule R93). -/
  | fade (c brightness : Word)
  /-- `BLEND`: colourA, alpha, colourB (rule R95). -/
  | blend (ca alpha cb : Word)
  /-- `GRAD`: startColor, endColor, steps, index (rule R96). -/
  | grad (start stop steps index : Word)
  /-- `LDPX`: a pixel index (rule R110). -/
  | ldpx (index : Word)
  /-- `STPX`: a pixel index and a packed colour (rule R111). -/
  | stpx (index c : Word)
deriving DecidableEq, Repr

/-- The twelve operations of rule R63 without their operands. -/
inductive Op where
  | packrgb | packargb | unpackb | unpackg | unpackr | unpacka
  | hsv | fade | blend | grad | ldpx | stpx
deriving DecidableEq, Repr

end Sys2Proof
end

