-- ==== Sys2Proof/WellFormed.lean ====
section
/-! DEFINITION. Which instructions have a request of their own: an operand word that the default bits `SD`, `VD` of `HSV` make
ignored is 0, as the assembler writes it (30_encoding.md rule R68; log entry 15). Every other instruction is well-formed with
any operand words. -/

namespace Sys2Proof

/-- Ignored operand words hold 0 (rule R68). -/
def Instr.wf : Instr → Bool
  | .packrgb _ _ _ => true
  | .packargb _ _ _ _ => true
  | .unpackb _ => true
  | .unpackg _ => true
  | .unpackr _ => true
  | .unpacka _ => true
  | .hsv sd vd _ sat val => (!sd || sat == 0#32) && (!vd || val == 0#32)
  | .fade _ _ => true
  | .blend _ _ _ => true
  | .grad _ _ _ _ => true
  | .ldpx _ => true
  | .stpx _ _ => true

end Sys2Proof
end

