-- ==== Sys2Proof/Decode.lean ====
section
/-! DEFINITION. Requests (30_encoding.md rules R60, R61), the opcode map (rule R63), decoding (rule R69), the names of the
reserved command words (rule R64), and the encoder. -/

namespace Sys2Proof

/-- The five words of a request `REQ` (rule R60). -/
structure Request where
  /-- `REQ[31:0]`, the command word. -/
  cmd : Word
  /-- `REQ[63:32]`, operand word 0. -/
  a : Word
  /-- `REQ[95:64]`, operand word 1. -/
  b : Word
  /-- `REQ[127:96]`, operand word 2. -/
  c : Word
  /-- `REQ[159:128]`, operand word 3. -/
  d : Word
deriving DecidableEq, Repr

/-- The words of a 160-bit request value (rule R60). -/
def Request.ofBits (req : BitVec 160) : Request where
  cmd := req.extractLsb' 0 32
  a := req.extractLsb' 32 32
  b := req.extractLsb' 64 32
  c := req.extractLsb' 96 32
  d := req.extractLsb' 128 32

/-- The 160-bit value of a request: `D` is the most significant word, `CMD` the least (rule R60). -/
def Request.toBits (r : Request) : BitVec 160 :=
  r.d ++ r.c ++ r.b ++ r.a ++ r.cmd

/-- `OPC = CMD[7:0]` (rule R61). -/
def opcField (cmd : Word) : BitVec 8 := cmd.extractLsb' 0 8

/-- `MOD = CMD[9:8]` (rule R61). -/
def modField (cmd : Word) : BitVec 2 := cmd.extractLsb' 8 2

/-- `CMD[31:10]`, which must be 0 (rule R61). -/
def reservedField (cmd : Word) : BitVec 22 := cmd.extractLsb' 10 22

/-- `SD = CMD[8]` (rules R61, R69). -/
def sdBit (cmd : Word) : Bool := cmd.getLsbD 8

/-- `VD = CMD[9]` (rules R61, R69). -/
def vdBit (cmd : Word) : Bool := cmd.getLsbD 9

/-- One row of the opcode map: a request selects it when `(CMD & mask) = pattern` (rule R63). -/
structure OpRow where
  op : Op
  pattern : Word
  mask : Word
deriving DecidableEq, Repr

/-- The opcode map of rule R63, row by row. -/
def opRows : List OpRow := [
  ⟨.packrgb,  0x00000001#32, 0xFFFFFFFF#32⟩,
  ⟨.packargb, 0x00000002#32, 0xFFFFFFFF#32⟩,
  ⟨.unpackb,  0x00000003#32, 0xFFFFFFFF#32⟩,
  ⟨.unpackg,  0x00000103#32, 0xFFFFFFFF#32⟩,
  ⟨.unpackr,  0x00000203#32, 0xFFFFFFFF#32⟩,
  ⟨.unpacka,  0x00000303#32, 0xFFFFFFFF#32⟩,
  ⟨.hsv,      0x00000004#32, 0xFFFFFCFF#32⟩,
  ⟨.fade,     0x00000005#32, 0xFFFFFFFF#32⟩,
  ⟨.blend,    0x00000006#32, 0xFFFFFFFF#32⟩,
  ⟨.grad,     0x00000007#32, 0xFFFFFFFF#32⟩,
  ⟨.ldpx,     0x00000008#32, 0xFFFFFFFF#32⟩,
  ⟨.stpx,     0x00000009#32, 0xFFFFFFFF#32⟩]

/-- Whether the command word selects the row (rule R63). -/
def OpRow.selects (row : OpRow) (cmd : Word) : Bool := (cmd &&& row.mask) == row.pattern

/-- Step (2) of rule R69: the row that the command word selects. -/
def selectedOp (cmd : Word) : Option Op := (opRows.find? (·.selects cmd)).map (·.op)

/-- Step (3) of rule R69: the operand words that rule R62 lists for the operation. A word of `HSV` that its default bit makes
ignored is read as 0, so that a junk word leaves no trace (rule R68; log entry 15). -/
def withOperands (op : Op) (q : Request) : Instr :=
  match op with
  | .packrgb => .packrgb q.a q.b q.c
  | .packargb => .packargb q.a q.b q.c q.d
  | .unpackb => .unpackb q.a
  | .unpackg => .unpackg q.a
  | .unpackr => .unpackr q.a
  | .unpacka => .unpacka q.a
  | .hsv => .hsv (sdBit q.cmd) (vdBit q.cmd) q.a
      (if sdBit q.cmd then 0#32 else q.b) (if vdBit q.cmd then 0#32 else q.c)
  | .fade => .fade q.a q.b
  | .blend => .blend q.a q.b q.c
  | .grad => .grad q.a q.b q.c q.d
  | .ldpx => .ldpx q.a
  | .stpx => .stpx q.a q.b

/-- Why a command word is reserved, in the words of rule R64. -/
inductive Reserved where
  /-- a bit of `CMD[31:10]` is set -/
  | reservedBitSet
  /-- `OPC` is `0x00` or in `0x0A .. 0xFF` -/
  | unassignedOpcode
  /-- `MOD` is not 0 where it must be 0 -/
  | modNotZero
deriving DecidableEq, Repr

/-- The name of a reserved command word's first fault of form (rule R64; the order of the names is log entry 16). -/
def reservedReason (cmd : Word) : Reserved :=
  if reservedField cmd ≠ 0#22 then .reservedBitSet
  else if opcField cmd = 0x00#8 ∨ 0x0A#8 ≤ opcField cmd then .unassignedOpcode
  else .modNotZero

/-- Decoding is total: every 160-bit value is exactly one operation or reserved, by name (rule R69). -/
def decode (req : BitVec 160) : Except Reserved Instr :=
  match selectedOp (Request.ofBits req).cmd with
  | some op => .ok (withOperands op (Request.ofBits req))
  | none => .error (reservedReason (Request.ofBits req).cmd)

/-- The instruction the decoder reads from `w`, bits from `nbits` up being 0; `none` where the command word is reserved. -/
def decodeTableWord (nbits w : Nat) : Option Instr :=
  match decode (BitVec.ofNat 160 (w % 2 ^ nbits)) with
  | .ok i => some i
  | .error _ => none

/-- The operation an instruction is. -/
def Instr.op : Instr → Op
  | .packrgb _ _ _ => .packrgb
  | .packargb _ _ _ _ => .packargb
  | .unpackb _ => .unpackb
  | .unpackg _ => .unpackg
  | .unpackr _ => .unpackr
  | .unpacka _ => .unpacka
  | .hsv _ _ _ _ _ => .hsv
  | .fade _ _ => .fade
  | .blend _ _ _ => .blend
  | .grad _ _ _ _ => .grad
  | .ldpx _ => .ldpx
  | .stpx _ _ => .stpx

/-- The command word `0x00000004 | (SD << 8) | (VD << 9)` of `HSV` (rule R91). -/
def hsvCommand (sd vd : Bool) : Word :=
  0x00000004#32 ||| (if sd then 0x00000100#32 else 0#32) ||| (if vd then 0x00000200#32 else 0#32)

/-- The five words of an instruction's request (rules R62, R63); words the operation does not use are 0 (rule R68). -/
def Instr.request : Instr → Request
  | .packrgb r g b => ⟨0x00000001#32, r, g, b, 0#32⟩
  | .packargb a r g b => ⟨0x00000002#32, a, r, g, b⟩
  | .unpackb c => ⟨0x00000003#32, c, 0#32, 0#32, 0#32⟩
  | .unpackg c => ⟨0x00000103#32, c, 0#32, 0#32, 0#32⟩
  | .unpackr c => ⟨0x00000203#32, c, 0#32, 0#32, 0#32⟩
  | .unpacka c => ⟨0x00000303#32, c, 0#32, 0#32, 0#32⟩
  | .hsv sd vd hue sat val => ⟨hsvCommand sd vd, hue, sat, val, 0#32⟩
  | .fade c brightness => ⟨0x00000005#32, c, brightness, 0#32, 0#32⟩
  | .blend ca alpha cb => ⟨0x00000006#32, ca, alpha, cb, 0#32⟩
  | .grad start stop steps index => ⟨0x00000007#32, start, stop, steps, index⟩
  | .ldpx index => ⟨0x00000008#32, index, 0#32, 0#32, 0#32⟩
  | .stpx index c => ⟨0x00000009#32, index, c, 0#32, 0#32⟩

/-- The 160-bit request of an instruction (rule R60). -/
def encode (i : Instr) : BitVec 160 := i.request.toBits

end Sys2Proof
end

