-- ==== Sys2Proof/Machine/Layout.lean ====
section
/-! DEFINITION. The layout tag and the stride it determines (10_state.md rule R24). -/

namespace Sys2Proof.Machine

/-- `LAYOUT`: "an enumeration {RGB, ARGB} fixed at buffer-construction time" (rule R24; the one-bit input is 0 for `rgb`,
1 for `argb`). -/
inductive Layout where
  | rgb
  | argb
deriving DecidableEq, Repr

/-- The one-bit layout input sampled at reset (rule R24): 0 is RGB, 1 is ARGB. -/
def Layout.ofBit : BitVec 1 → Layout
  | b => if b = 0#1 then .rgb else .argb

/-- Bytes per pixel: 3 for RGB, 4 for ARGB (rule R24). It is not stored. -/
def Layout.stride : Layout → Nat
  | .rgb => 3
  | .argb => 4

end Sys2Proof.Machine
end

