-- ==== Sys2Proof/Config.lean ====
section
/-! DEFINITION. What is fixed for the machine: the largest store (rule R25, decision D18) and the arguments of reset that
`State.reset` uses (rule R141 leaves them to the model; log entry 4). No value of this hardware is undefined, so there is no
free value here: what the external holder writes is an input (rule R46; log entry 1). -/

namespace Sys2Proof.Config

/-- The bound `size <= 2^31 - 1` of rule R25. -/
def maxStoreSize : Nat := 2147483647

/-- DESIGN CHOICE (log entry 4): the layout input at the reset that `State.reset` stands for. -/
def resetLayout : Machine.Layout := .rgb

/-- DESIGN CHOICE (log entry 4): the requested length `N` at the reset that `State.reset` stands for. -/
def resetLength : Nat := 4

end Sys2Proof.Config
end

