-- ==== Sys2Proof/Machine/State.lean ====
section
/-! DEFINITION. The machine state of the colour unit, `Cu` (10_state.md rule R20, and nothing of what rule R29 keeps out of it); the
world around it, `World` (what the host and the external holder have lined up and the responses they were given: log entries 1
and 2); `State`, the two together, which the host's interface steps; the reasons a step can stop; and the state after reset
(rules R28, R141). All of it is plain data. -/

namespace Sys2Proof.Machine

/-- A response `RSP` (30_encoding.md rule R65). -/
structure Response where
  /-- `RSP[31:0]`, the result word. -/
  y : Word
  /-- `RSP[32]`: an index was checked and was out of range. -/
  oob : Bool
  /-- `RSP[33]`: the command word was reserved. -/
  ill : Bool
deriving DecidableEq, Repr

/-- Store bytes by address, in one canonical form (`Memory.wf`): addresses strictly rising, no entry 0. An address with no
entry holds 0, the value of an allocated byte (rule R28). -/
abbrev Memory := List Host.Cell

/-- The pixel byte store `PX` (rule R20). -/
structure Store where
  /-- `PX.bytes`, one value per address `0 .. size - 1`. -/
  bytes : Memory
  /-- `PX.size`, the number of bytes. -/
  size : Nat
deriving DecidableEq, Repr

/-- What the external holder of an aliased store does between two requests (00_scope.md rule R5, 20_memory.md rule R46). -/
inductive HolderAccess where
  /-- reads one byte -/
  | readByte (addr : Nat)
  /-- writes one byte -/
  | writeByte (addr : Nat) (value : Byte)
  /-- rewrites the bytes and the size, arbitrarily: the store then holds exactly these bytes from address 0 up -/
  | rewrite (contents : List Byte)
  /-- frees the store (70_reset_and_hazards.md rule R144) -/
  | free
deriving DecidableEq, Repr

/-- The two forms of reset with their inputs (70_reset_and_hazards.md rule R141). -/
inductive ResetForm where
  /-- form "allocate": a layout and a length `N` -/
  | allocate (layout : Layout) (length : Nat)
  /-- form "wrap": a layout and an existing store, given by its bytes from address 0 up -/
  | wrap (layout : Layout) (contents : List Byte)
deriving DecidableEq, Repr

/-- One point of the total order of rule R46 that is still to come. -/
inductive Input where
  /-- the host presents a request `REQ` -/
  | request (req : BitVec 160)
  /-- the external holder accesses the store -/
  | holder (access : HolderAccess)
  /-- the buffer is constructed anew -/
  | reset (form : ResetForm)
deriving DecidableEq, Repr

/-- The machine state of the unit: the whole architectural state of rule R20. No request, response, sequence of requests or choice
of the external holder is in it (rule R29); `transition` in Machine/Unit.lean is the step over it. -/
structure Cu where
  /-- `PX`, the attached store; `none` when no store is attached, the store having been freed (rule R144; log entry 10). -/
  px : Option Store
  /-- `LAYOUT`, fixed at reset (rule R24). -/
  layout : Layout
  /-- `STORE_OWNED`, fixed at reset (rule R26). -/
  storeOwned : Bool
deriving DecidableEq, Repr

/-- The world around the unit: what rule R29 calls inputs and results of its step and no state of it (log entries 1 and 2). -/
structure World where
  /-- what the host and the external holder do next, in the total order of rule R46. -/
  inputs : List Input
  /-- the responses given so far, the newest first. -/
  responses : List Response
deriving DecidableEq, Repr

/-- The closed system that the host's interface steps: the unit and the world around it, side by side. Its step has no argument but
this, so the request of the step stands in `World` (log entry 1). -/
structure State extends Cu, World
deriving DecidableEq, Repr

/-- Why the machine stops. -/
inductive Fault where
  /-- Raised by `LDPX` and `STPX` when no store is attached: rule R144 says that an access after the store has ceased to exist
  "has no defined behaviour" (93_implementation_defined.md U8: stuck, "Never a value"). Safe. -/
  | storeAbsent
  /-- Raised by `LDPX` and `STPX` if they ask the store port for bytes outside the store, where rule R51 does not define it. The
  range check of rule R45 comes first, so no state reaches it. Safe. -/
  | outsideStore
deriving DecidableEq, Repr

/-- Why a step has no meaning. None of them is raised by an instruction. -/
inductive Refusal where
  /-- An instruction that has no meaning yet; raised by `exec` alone, and by none of its arms now. Safe. -/
  | notModelled (mnemonic : String)
  /-- Raised by an external-holder input that names a byte outside the store, or any access once the store is freed: rule R51
  gives the store no such byte. Safe. -/
  | holderOutsideStore
  /-- Raised by a reset or an external-holder input that would make a store larger than 2^31 - 1 bytes: "the model has no such
  store" (92_eei_decisions.md D18, 93_implementation_defined.md U10). Safe. -/
  | storeTooLarge
deriving DecidableEq, Repr

/-- The state that form "allocate" constructs: an owned store of `N * stride` zero bytes (rules R28, R141). -/
def State.allocated (layout : Layout) (length : Nat) : State where
  px := some { bytes := [], size := length * layout.stride }
  layout := layout
  storeOwned := true
  inputs := []
  responses := []

/-- The machine right after reset: form "allocate" (rules R28, R140, R141) with the arguments that `Config` names
(log entry 4). No request is waiting and none has been answered. -/
def State.reset : State := State.allocated Config.resetLayout Config.resetLength

end Sys2Proof.Machine
end

