-- ==== Sys2Proof/Machine/Operands.lean ====
section
/-! DEFINITION. How operand words are read (00_scope.md rules R8, R9; 30_encoding.md rule R62; 41_color_math.md rule R90): signed,
unsigned, low 8 bits, clamped, raised, wrapped; and the index range check (20_memory.md rule R45). -/

namespace Sys2Proof.Machine

/-- `uint(w)`: the value of a word as an unsigned integer (rule R8). -/
def uint (w : Word) : Nat := w.toNat

/-- `sint(w)`: the value of a word as a two's-complement integer (rule R8). -/
def sint (w : Word) : Int := w.toInt

/-- `word(v)`: the 32-bit word of an integer, modulo 2^32 (rule R8). -/
def word (v : Int) : Word := BitVec.ofInt 32 v

/-- The sentinel `-1`, the word `0xFFFFFFFF` (rule R8). -/
def sentinel : Word := word (-1)

/-- `x & 0xFF`: `x mod 256`, in 0 .. 255 for every integer (rule R9). -/
def mask8 (x : Int) : Nat := (x % 256).toNat

/-- "low 8" of an operand word (rule R62). -/
def low8 (w : Word) : Nat := mask8 (uint w)

/-- `clamp255(x) = max(0, min(255, x))` (rule R9). -/
def clamp255 (x : Int) : Nat := (max 0 (min 255 x)).toNat

/-- `brightness` of `FADE` and `alpha` of `BLEND`: signed, then clamped (rule R90). -/
def clampOperand (w : Word) : Nat := clamp255 (sint w)

/-- `steps` of `GRAD`: signed, then raised to at least 2 (rule R90). -/
def stepsOperand (w : Word) : Int := max 2 (sint w)

/-- `sat` and `val` of `HSV`: 255 when the default bit is set, else the low 8 bits (rules R62, R91). -/
def defaultedOperand (useDefault : Bool) (w : Word) : Nat := if useDefault then 255 else low8 w

/-- `x rem y`: the truncating remainder, with the sign of `x` (rule R9). -/
def rem (x y : Int) : Int := Int.tmod x y

/-- Step 1 of `HSV`: `hue rem 255`, plus 255 when that is negative (rule R91). -/
def wrapHue (hue : Int) : Nat :=
  let t := rem hue 255
  (if t < 0 then t + 255 else t).toNat

/-- The range check: `0 <= index < length` (rule R45). -/
def inRange (index length : Int) : Bool := decide (0 ≤ index) && decide (index < length)

end Sys2Proof.Machine
end

