-- ==== Sys2Proof/Machine/Channel.lean ====
section
/-! DEFINITION. The two functions of the channel codec (40_channel_codec.md rules R80, R83), the order of a pixel's bytes
(20_memory.md rule R41) and the channel blend (41_color_math.md rule R94). -/

namespace Sys2Proof.Machine

/-- `rgb(r, g, b)` for any integers (rule R80). -/
def rgb (r g b : Int) : Nat := mask8 r <<< 16 ||| mask8 g <<< 8 ||| mask8 b

/-- `argb(a, r, g, b)` for any integers (rule R80). -/
def argb (a r g b : Int) : Nat := mask8 a <<< 24 ||| mask8 r <<< 16 ||| mask8 g <<< 8 ||| mask8 b

/-- `ch(c, k)`: channel `k` of a colour; 0 blue, 1 green, 2 red, 3 alpha (rule R83). -/
def ch (c : Word) (k : Nat) : Nat := mask8 ((uint c >>> (8 * k) : Nat) : Int)

/-- Channel `k` as a store byte. -/
def chByte (c : Word) (k : Nat) : Byte := BitVec.ofNat 8 (ch c k)

/-- The bytes of a pixel from its lowest address up, most significant channel first (rules R41, R111). -/
def pixelBytes (layout : Layout) (c : Word) : List Byte :=
  match layout with
  | .rgb => [chByte c 2, chByte c 1, chByte c 0]
  | .argb => [chByte c 3, chByte c 2, chByte c 1, chByte c 0]

/-- The colour whose significant bytes are these, the most significant first (rules R41, R110): "the big-endian order of the
packed colour's significant bytes". -/
def colourOfBytes (bs : List Byte) : Word :=
  word ((bs.foldl (fun acc b => acc * 256 + b.toNat) 0 : Nat) : Int)

/-- `blendch(a, b, al) = (a * (255 - al) + b * al) >> 8` (rule R94), for `al` in 0 .. 255. -/
def blendch (a b al : Nat) : Nat := (a * (255 - al) + b * al) >>> 8

/-- Red, green and blue blended lane by lane, bits 31:24 of both colours dropped (rules R95, R100). -/
def blendColours (ca cb : Word) (al : Nat) : Word :=
  word (rgb (blendch (ch ca 2) (ch cb 2) al) (blendch (ch ca 1) (ch cb 1) al) (blendch (ch ca 0) (ch cb 0) al))

end Sys2Proof.Machine
end

