-- ==== Sys2Proof/Machine/Flags.lean ====
section
/-! DEFINITION. The two one-bit fields of a response (30_encoding.md rule R65): which responses there are. The unit has no flag
that persists (10_state.md rule R23). -/

namespace Sys2Proof.Machine

/-- An operation that did its work: `OOB = 0`, `ILL = 0` (rules R11, R65). -/
def Response.done (y : Word) : Response := { y := y, oob := false, ill := false }

/-- An operation whose index was out of range: `OOB = 1`, `ILL = 0` (rule R65). -/
def Response.outOfRange (y : Word) : Response := { y := y, oob := true, ill := false }

/-- The answer to a reserved command word: `Y = 0`, `OOB = 0`, `ILL = 1` (rule R64). -/
def Response.reserved : Response := { y := 0#32, oob := false, ill := true }

/-- `RSP`: `Y` in bits 31:0, `OOB` in bit 32, `ILL` in bit 33 (rule R65). -/
def Response.toBits (r : Response) : BitVec 34 :=
  BitVec.ofBool r.ill ++ BitVec.ofBool r.oob ++ r.y

end Sys2Proof.Machine
end

