-- ==== Sys2Proof/Machine/Ops.lean ====
section
/-! DEFINITION. The shared operations: one byte of memory (read, write), the store port (20_memory.md rule R51), giving a
response (rule R65), the reply of the unit to a request (10_state.md rule R29), what the external holder does (rule R46), and construction (70_reset_and_hazards.md rule R141). There is
no exception to take and none to return from (60_exceptions.md rules R120, R125). -/

namespace Sys2Proof.Machine

/-- The canonical form: addresses strictly rising, and no entry equal to what an unlisted address reads as. -/
abbrev Memory.wf (m : Memory) : Prop :=
  m.Pairwise (fun x y => x.1 < y.1) ∧ ∀ x ∈ m, x.2 ≠ 0#8

/-- The byte at an address; 0 where none is listed (rule R28: an allocated store is zero-initialised; log entry 5). -/
def Memory.read : Memory → Nat → Byte
  | [], _ => 0#8
  | (a, v) :: m, addr => if addr = a then v else Memory.read m addr

/-- Sets the byte at an address, keeping the canonical form. -/
def Memory.write : Memory → Nat → Byte → Memory
  | [], addr, b => if b = 0#8 then [] else [(addr, b)]
  | (a, v) :: m, addr, b =>
    if addr < a then (if b = 0#8 then (a, v) :: m else (addr, b) :: (a, v) :: m)
    else if addr = a then (if b = 0#8 then m else (addr, b) :: m)
    else (a, v) :: Memory.write m addr b

/-- Sets consecutive bytes, the first at `addr`. -/
def Memory.writeBytes : Memory → Nat → List Byte → Memory
  | m, _, [] => m
  | m, addr, b :: bs => Memory.writeBytes (m.write addr b) (addr + 1) bs

/-- A store as the spec allows it: canonical bytes, all of them inside the store, and a size within the bound (rules R20, R25). -/
abbrev Store.wf (st : Store) : Prop :=
  st.bytes.wf ∧ (∀ x ∈ st.bytes, x.1 < st.size) ∧ st.size ≤ Config.maxStoreSize

/-- The byte at an address of the store; `none` at an address that does not exist (rule R40). -/
def Store.byteAt (st : Store) (addr : Nat) : Option Byte :=
  if addr < st.size then some (st.bytes.read addr) else none

/-- `StoreSize()` (rule R51). -/
def Store.storeSize (st : Store) : Nat := st.size

/-- `length = StoreSize() div stride`, computed anew at each use (rule R25). -/
def Store.length (st : Store) (layout : Layout) : Nat := st.storeSize / layout.stride

/-- `MemRead(addr, n)`, defined when `addr + n <= StoreSize()` (rule R51). -/
def Store.memRead (st : Store) (addr n : Nat) : Option (List Byte) :=
  if addr + n ≤ st.storeSize then some ((List.range n).map (fun k => st.bytes.read (addr + k))) else none

/-- `MemWrite(addr, n, bytes)` with `n` the number of bytes given, defined when `addr + n <= StoreSize()` (rule R51). -/
def Store.memWrite (st : Store) (addr : Nat) (bs : List Byte) : Option Store :=
  if addr + bs.length ≤ st.storeSize then some { st with bytes := st.bytes.writeBytes addr bs } else none

/-- The store that holds exactly these bytes from address 0 up. -/
def Store.ofContents (contents : List Byte) : Store where
  bytes := Memory.writeBytes [] 0 contents
  size := contents.length

/-- The byte address of pixel `i`: `i * stride` (rule R42). -/
def pixelAddr (layout : Layout) (i : Nat) : Nat := i * layout.stride

/-- Gives the response to the current request (rule R65: exactly one per request). -/
def State.respond (s : State) (r : Response) : State := { s with responses := r :: s.responses }

/-- The state with another store attached, or none. -/
def State.withStore (s : State) (px : Option Store) : State := { s with px := px }

/-- What the unit gives for one request: the store after it and the response (10_state.md rule R29: `(PX', response)`), or why it
stops. -/
abbrev Reply := Host.Outcome (Option Store × Response) Fault Refusal

/-- The closed system after the unit's reply: the store is the one of the reply, the host has the response. -/
def State.answer (s : State) (reply : Reply) : Host.Outcome State Fault Refusal :=
  match reply with
  | .next (px, r) => .next ((s.withStore px).respond r)
  | .fault f => .fault f
  | .refused r => .refused r

/-- A point of the external holder (rule R46): arbitrary between requests when the store is aliased, none when it is owned
(log entry 8). -/
def holderAct (access : HolderAccess) (s : State) : Host.Outcome State Fault Refusal :=
  if s.storeOwned then .next s
  else match s.px with
  | none => .refused .holderOutsideStore
  | some st =>
    match access with
    | .readByte addr =>
      match st.memRead addr 1 with
      | some _ => .next s
      | none => .refused .holderOutsideStore
    | .writeByte addr value =>
      match st.memWrite addr [value] with
      | some st' => .next (s.withStore (some st'))
      | none => .refused .holderOutsideStore
    | .rewrite contents =>
      if contents.length ≤ Config.maxStoreSize then .next (s.withStore (some (Store.ofContents contents)))
      else .refused .storeTooLarge
    | .free => .next (s.withStore none)

/-- Construction (rules R140, R141): it rebinds `LAYOUT`, `STORE_OWNED` and the store, and nothing else; outside the premise of
rule R141 the model has no such state (93_implementation_defined.md U10). -/
def construct (form : ResetForm) (s : State) : Host.Outcome State Fault Refusal :=
  match form with
  | .allocate layout length =>
    if length * layout.stride ≤ Config.maxStoreSize then
      .next { State.allocated layout length with inputs := s.inputs, responses := s.responses }
    else .refused .storeTooLarge
  | .wrap layout contents =>
    if contents.length ≤ Config.maxStoreSize then
      .next { s with px := some (Store.ofContents contents), layout := layout, storeOwned := false }
    else .refused .storeTooLarge

end Sys2Proof.Machine
end

