-- ==== Sys2Proof/Machine/Codec.lean ====
section
/-! DEFINITION. The channel codec's instructions (40_channel_codec.md): `PACKRGB`, `PACKARGB`, `UNPACKB`, `UNPACKG`, `UNPACKR`,
`UNPACKA`. None touches the store, reads the layout or can set `OOB`. -/

namespace Sys2Proof.Machine

/-- The response of `PACKRGB` (rule R81). -/
def packrgbResponse (r g b : Word) : Response := .done (word (rgb (uint r) (uint g) (uint b)))

/-- `PACKRGB` (rule R81). -/
def execPackrgb (r g b : Word) (s : State) : Host.Outcome State Fault Refusal :=
  .next (s.respond (packrgbResponse r g b))

/-- The response of `PACKARGB` (rule R82). -/
def packargbResponse (a r g b : Word) : Response := .done (word (argb (uint a) (uint r) (uint g) (uint b)))

/-- `PACKARGB` (rule R82). -/
def execPackargb (a r g b : Word) (s : State) : Host.Outcome State Fault Refusal :=
  .next (s.respond (packargbResponse a r g b))

/-- The unpack function as a response: channel `k`, zero-extended (rule R83). -/
def unpackChannel (c : Word) (k : Nat) : Response := .done (word (ch c k))

/-- `UNPACKB` (rule R84). -/
def execUnpackb (c : Word) (s : State) : Host.Outcome State Fault Refusal :=
  .next (s.respond (unpackChannel c 0))

/-- `UNPACKG` (rule R85). -/
def execUnpackg (c : Word) (s : State) : Host.Outcome State Fault Refusal :=
  .next (s.respond (unpackChannel c 1))

/-- `UNPACKR` (rule R86). -/
def execUnpackr (c : Word) (s : State) : Host.Outcome State Fault Refusal :=
  .next (s.respond (unpackChannel c 2))

/-- `UNPACKA` (rule R87). -/
def execUnpacka (c : Word) (s : State) : Host.Outcome State Fault Refusal :=
  .next (s.respond (unpackChannel c 3))

end Sys2Proof.Machine
end

