-- ==== Sys2Proof/Machine/ColorMath.lean ====
section
/-! DEFINITION. Colour math (41_color_math.md): `HSV`, `FADE`, `BLEND`, `GRAD`. None touches the store or reads the layout. Every
intermediate is an exact integer (00_scope.md rule R10). -/

namespace Sys2Proof.Machine

/-- Step 2 of `HSV`: the hue rescaled to 0 .. 191 (rule R91). -/
def rescaleHue (h0 : Nat) : Nat := (h0 * 192) / 255

/-- Step 3 of `HSV`: brightnessFloor (rule R91). -/
def brightnessFloor (sat val : Nat) : Nat := (val * (255 - sat)) / 255

/-- Step 3 of `HSV`: colorAmplitude (rule R91). -/
def colorAmplitude (sat val : Nat) : Nat := val - brightnessFloor sat val

/-- Step 5 of `HSV`: a ramp times the amplitude times 4, divided by 255 with one truncation, plus the floor (rule R91;
90_conflicts.md C3). -/
def scaleRamp (ramp amp floor : Nat) : Nat := (ramp * amp * 4) / 255 + floor

/-- The `HSV` conversion on a hue already wrapped into 0 .. 254, steps 2 to 6 (rule R91). -/
def rainbow (h0 sat val : Nat) : Word :=
  let h := rescaleHue h0
  let floor := brightnessFloor sat val
  let amp := colorAmplitude sat val
  let offset := h % 64
  let upF := scaleRamp offset amp floor
  let downF := scaleRamp (63 - offset) amp floor
  match h / 64 with
  | 0 => word (rgb downF upF floor)
  | 1 => word (rgb floor downF upF)
  | _ => word (rgb upF floor downF)

/-- The response of `HSV` (rule R91). -/
def hsvResponse (sd vd : Bool) (hue sat val : Word) : Response :=
  .done (rainbow (wrapHue (sint hue)) (defaultedOperand sd sat) (defaultedOperand vd val))

/-- `HSV` (rule R91). -/
def execHsv (sd vd : Bool) (hue sat val : Word) (s : State) : Host.Outcome State Fault Refusal :=
  .next (s.respond (hsvResponse sd vd hue sat val))

/-- One channel scaled by a brightness: `(channel * br) >> 8` (rule R93). -/
def scaleChannel (channel br : Nat) : Nat := (channel * br) >>> 8

/-- The colour that `FADE` gives: unchanged at 255, else red, green and blue scaled (rule R93). -/
def fadeColour (c : Word) (br : Nat) : Word :=
  if br = 255 then c
  else word (rgb (scaleChannel (ch c 2) br) (scaleChannel (ch c 1) br) (scaleChannel (ch c 0) br))

/-- The response of `FADE` (rule R93): the clamp comes before the test for 255. -/
def fadeResponse (c brightness : Word) : Response := .done (fadeColour c (clampOperand brightness))

/-- `FADE` (rule R93). -/
def execFade (c brightness : Word) (s : State) : Host.Outcome State Fault Refusal :=
  .next (s.respond (fadeResponse c brightness))

/-- The response of `BLEND` (rule R95): no fast path (90_conflicts.md C1). -/
def blendResponse (ca alpha cb : Word) : Response := .done (blendColours ca cb (clampOperand alpha))

/-- `BLEND` (rule R95). -/
def execBlend (ca alpha cb : Word) (s : State) : Host.Outcome State Fault Refusal :=
  .next (s.respond (blendResponse ca alpha cb))

/-- The alpha of an interior index: `(255 * i) div n`, exact (rules R10, R96). -/
def gradAlpha (i n : Nat) : Nat := (255 * i) / n

/-- The response of `GRAD` for the clamped step count `n` and the index `i` (rule R96). -/
def gradSample (start stop : Word) (n i : Int) : Response :=
  if inRange i n then
    if i = 0 then .done start
    else if i = n - 1 then .done stop
    else .done (blendColours start stop (gradAlpha i.toNat n.toNat))
  else .outOfRange sentinel

/-- The response of `GRAD` (rule R96). -/
def gradResponse (start stop steps index : Word) : Response :=
  gradSample start stop (stepsOperand steps) (sint index)

/-- `GRAD` (rule R96). -/
def execGrad (start stop steps index : Word) (s : State) : Host.Outcome State Fault Refusal :=
  .next (s.respond (gradResponse start stop steps index))

end Sys2Proof.Machine
end

