-- ==== Sys2Proof/Machine/Pixel.lean ====
section
/-! DEFINITION. Pixel access (42_pixel_access.md): `LDPX` and `STPX`, the only instructions that touch the store or read the
layout. Without a store they stop (70_reset_and_hazards.md rule R144; log entry 10). -/

namespace Sys2Proof.Machine

/-- The response of `LDPX` when the index is in range and the port gave these bytes (rule R110). -/
def pixelRead (bs : List Byte) : Response := .done (colourOfBytes bs)

/-- What `LDPX` does with the layout and the store (rule R110). -/
def ldpxReply (layout : Layout) (px : Option Store) (index : Word) : Reply :=
  match px with
  | none => .fault .storeAbsent
  | some st =>
    if inRange (sint index) (st.length layout) then
      match st.memRead (pixelAddr layout (sint index).toNat) layout.stride with
      | some bs => .next (some st, pixelRead bs)
      | none => .fault .outsideStore
    else .next (some st, .outOfRange sentinel)

/-- `LDPX` (rule R110). -/
def execLdpx (index : Word) (s : State) : Host.Outcome State Fault Refusal :=
  s.answer (ldpxReply s.layout s.px index)

/-- What `STPX` does with the layout and the store (rule R111). -/
def stpxReply (layout : Layout) (px : Option Store) (index c : Word) : Reply :=
  match px with
  | none => .fault .storeAbsent
  | some st =>
    if inRange (sint index) (st.length layout) then
      match st.memWrite (pixelAddr layout (sint index).toNat) (pixelBytes layout c) with
      | some st' => .next (some st', .done 0#32)
      | none => .fault .outsideStore
    else .next (some st, .outOfRange 0#32)

/-- `STPX` (rule R111). -/
def execStpx (index c : Word) (s : State) : Host.Outcome State Fault Refusal :=
  s.answer (stpxReply s.layout s.px index c)

end Sys2Proof.Machine
end

