-- ==== Sys2Proof/Machine/Dispatch.lean ====
section
/-! DEFINITION. One arm per instruction, each one direct call of its meaning. -/

namespace Sys2Proof.Machine

def exec (i : Instr) (s : State) : Host.Outcome State Fault Refusal :=
  match i with
  | .packrgb r g b => Sys2Proof.Machine.execPackrgb r g b s
  | .packargb a r g b => Sys2Proof.Machine.execPackargb a r g b s
  | .unpackb c => Sys2Proof.Machine.execUnpackb c s
  | .unpackg c => Sys2Proof.Machine.execUnpackg c s
  | .unpackr c => Sys2Proof.Machine.execUnpackr c s
  | .unpacka c => Sys2Proof.Machine.execUnpacka c s
  | .hsv sd vd hue sat val => Sys2Proof.Machine.execHsv sd vd hue sat val s
  | .fade c brightness => Sys2Proof.Machine.execFade c brightness s
  | .blend ca alpha cb => Sys2Proof.Machine.execBlend ca alpha cb s
  | .grad start stop steps index => Sys2Proof.Machine.execGrad start stop steps index s
  | .ldpx index => Sys2Proof.Machine.execLdpx index s
  | .stpx index c => Sys2Proof.Machine.execStpx index c s

end Sys2Proof.Machine
end

