-- ==== Sys2Proof/Machine/Step.lean ====
section
/-! DEFINITION. One step: the next point of the total order (20_memory.md rule R46) is taken from `inputs`. A request is decoded
and answered, the reserved check first (60_exceptions.md rule R124); an access of the external holder changes the store; a reset
constructs the buffer anew. With no input the unit does nothing (rule R133). -/

namespace Sys2Proof.Machine

/-- Answers a request: the decoded instruction's meaning, or the `ILL` response, which changes nothing (rules R64, R69, R124;
log entry 6). -/
def serve (req : BitVec 160) (s : State) : Host.Outcome State Fault Refusal :=
  match decode req with
  | .ok i => exec i s
  | .error _ => .next (s.respond .reserved)

/-- One step of the machine. -/
def step (s : State) : Host.Outcome State Fault Refusal :=
  match s.inputs with
  | [] => .next s
  | .request req :: rest => serve req { s with inputs := rest }
  | .holder access :: rest => holderAct access { s with inputs := rest }
  | .reset form :: rest => construct form { s with inputs := rest }

/-- The host presents the request whose bits are `w` next, bits from `nbits` up being 0 (log entry 3). -/
def State.withFetchWord (s : State) (nbits w : Nat) : State :=
  { s with inputs := .request (BitVec.ofNat 160 (w % 2 ^ nbits)) :: s.inputs }

end Sys2Proof.Machine
end

