-- ==== Sys2Proof/Machine/Assembler.lean ====
section
/-! DEFINITION. The written form of a request (30_encoding.md rule R67): mnemonics, pseudo-instructions, the defaults of `HSV`,
earlier results `Y[n]`, and the reading of one line of text. It is the host's: the unit never sees it. -/

namespace Sys2Proof.Machine

/-- An operand as written (rule R67). -/
inductive AsmOperand where
  /-- a decimal integer -/
  | int (v : Int)
  /-- a hexadecimal word `0x..` -/
  | hex (w : Word)
  /-- `Y[n]`, the result word of request number `n` of the same listing -/
  | result (n : Nat)
  /-- `-`, the default of `sat` or `val` of `HSV` -/
  | dash
deriving DecidableEq, Repr

/-- The mnemonics and the pseudo-instructions of rule R67. -/
inductive AsmName where
  | packrgb | packargb | unpackb | unpackg | unpackr | unpacka
  | hsv | fade | blend | grad | ldpx | stpx
  | rgb | argb | getcolor | setcolor | unpack
deriving DecidableEq, Repr

/-- One written request. -/
structure AsmLine where
  name : AsmName
  operands : List AsmOperand
deriving DecidableEq, Repr

/-- The word an operand stands for, given the results of the earlier requests of the listing. An integer that no 32-bit operand
word holds, signed or unsigned, has no word (92_eei_decisions.md D2; log entry 17). -/
def AsmOperand.value (ys : List Word) : AsmOperand → Option Word
  | .int v => if -2147483648 ≤ v ∧ v ≤ 4294967295 then some (word v) else none
  | .hex w => some w
  | .result n => ys[n]?
  | .dash => none

/-- `sat` or `val` of `HSV` as written: a `-` or nothing sets the default bit, and the word is then 0 (rule R67). -/
def hsvOperand (ys : List Word) : Option AsmOperand → Option (Bool × Word)
  | none => some (true, 0#32)
  | some .dash => some (true, 0#32)
  | some o => (o.value ys).map (fun w => (false, w))

/-- `HSV` with one, two or three written operands (rule R67). -/
def assembleHsv (ys : List Word) (hue : AsmOperand) (sat val : Option AsmOperand) : Option Instr :=
  match hue.value ys, hsvOperand ys sat, hsvOperand ys val with
  | some h, some (sd, s), some (vd, v) => some (.hsv sd vd h s v)
  | _, _, _ => none

/-- The mnemonic of `UNPACK c, k` for a literal `k` in 0..3 (rule R67). -/
def unpackName : AsmOperand → Option AsmName
  | .int v => if v = 0 then some .unpackb else if v = 1 then some .unpackg
    else if v = 2 then some .unpackr else if v = 3 then some .unpacka else none
  | .hex w => if w = 0#32 then some .unpackb else if w = 1#32 then some .unpackg
    else if w = 2#32 then some .unpackr else if w = 3#32 then some .unpacka else none
  | .result _ => none
  | .dash => none

/-- The expansion of the pseudo-instructions; a mnemonic stands for itself (rule R67). -/
def AsmLine.expand (line : AsmLine) : Option AsmLine :=
  match line.name, line.operands with
  | .rgb, ops => some ⟨.packrgb, ops⟩
  | .argb, ops => some ⟨.packargb, ops⟩
  | .getcolor, ops => some ⟨.ldpx, ops⟩
  | .setcolor, ops => some ⟨.stpx, ops⟩
  | .unpack, [c, k] => (unpackName k).map (fun name => ⟨name, [c]⟩)
  | .unpack, _ => none
  | _, _ => some line

/-- The instruction of an expanded line: as many operands as rule R62 lists, in the order `A`, `B`, `C`, `D`. -/
def assembleExpanded (ys : List Word) (line : AsmLine) : Option Instr :=
  match line.name, line.operands with
  | .packrgb, [r, g, b] =>
    (r.value ys).bind fun r => (g.value ys).bind fun g => (b.value ys).map fun b => .packrgb r g b
  | .packargb, [a, r, g, b] =>
    (a.value ys).bind fun a => (r.value ys).bind fun r => (g.value ys).bind fun g =>
      (b.value ys).map fun b => .packargb a r g b
  | .unpackb, [c] => (c.value ys).map .unpackb
  | .unpackg, [c] => (c.value ys).map .unpackg
  | .unpackr, [c] => (c.value ys).map .unpackr
  | .unpacka, [c] => (c.value ys).map .unpacka
  | .hsv, [h] => assembleHsv ys h none none
  | .hsv, [h, s] => assembleHsv ys h (some s) none
  | .hsv, [h, s, v] => assembleHsv ys h (some s) (some v)
  | .fade, [c, br] => (c.value ys).bind fun c => (br.value ys).map fun br => .fade c br
  | .blend, [ca, al, cb] =>
    (ca.value ys).bind fun ca => (al.value ys).bind fun al => (cb.value ys).map fun cb => .blend ca al cb
  | .grad, [s, e, n, i] =>
    (s.value ys).bind fun s => (e.value ys).bind fun e => (n.value ys).bind fun n =>
      (i.value ys).map fun i => .grad s e n i
  | .ldpx, [i] => (i.value ys).map .ldpx
  | .stpx, [i, c] => (i.value ys).bind fun i => (c.value ys).map fun c => .stpx i c
  | _, _ => none

/-- The instruction of a written request, given the results of the earlier requests of the listing (rule R67). -/
def assemble (ys : List Word) (line : AsmLine) : Option Instr :=
  line.expand.bind (assembleExpanded ys)

/-! The reading of a line of text (rule R67; spaces, letter case and digits are log entry 17). -/

/-- The value of a decimal digit. -/
def decimalDigit (c : Char) : Option Nat :=
  if '0'.toNat ≤ c.toNat ∧ c.toNat ≤ '9'.toNat then some (c.toNat - '0'.toNat) else none

/-- The value of a hexadecimal digit. -/
def hexDigit (c : Char) : Option Nat :=
  if 'A'.toNat ≤ c.toNat ∧ c.toNat ≤ 'F'.toNat then some (c.toNat - 'A'.toNat + 10)
  else if 'a'.toNat ≤ c.toNat ∧ c.toNat ≤ 'f'.toNat then some (c.toNat - 'a'.toNat + 10)
  else decimalDigit c

/-- The number that digits write in a base, the most significant first. -/
def digitsValue (digit : Char → Option Nat) (base : Nat) : Nat → List Char → Option Nat
  | acc, [] => some acc
  | acc, c :: cs => (digit c).bind fun d => digitsValue digit base (acc * base + d) cs

/-- A non-empty decimal numeral. -/
def decimalNumeral (cs : List Char) : Option Nat :=
  if cs = [] then none else digitsValue decimalDigit 10 0 cs

/-- A hexadecimal numeral of one to eight digits. -/
def hexNumeral (cs : List Char) : Option Word :=
  if cs = [] ∨ 8 < cs.length then none else (digitsValue hexDigit 16 0 cs).map (BitVec.ofNat 32)

/-- One operand. -/
def parseOperand : List Char → Option AsmOperand
  | ['-'] => some .dash
  | '-' :: cs => (decimalNumeral cs).map fun n => .int (-(n : Int))
  | '0' :: 'x' :: cs => (hexNumeral cs).map .hex
  | 'Y' :: '[' :: cs =>
    if cs.getLast? = some ']' then (decimalNumeral cs.dropLast).map .result else none
  | cs => (decimalNumeral cs).map fun n => .int n

/-- The text without the spaces around it. -/
def trimSpaces (cs : List Char) : List Char :=
  ((cs.dropWhile (· == ' ')).reverse.dropWhile (· == ' ')).reverse

/-- The text between commas. -/
def splitCommas : List Char → List (List Char)
  | [] => [[]]
  | c :: cs =>
    match splitCommas cs with
    | [] => [[c]]
    | w :: ws => if c = ',' then [] :: w :: ws else (c :: w) :: ws

/-- The operands of a line. -/
def parseOperands : List (List Char) → Option (List AsmOperand)
  | [] => some []
  | w :: ws => (parseOperand (trimSpaces w)).bind fun o => (parseOperands ws).map (o :: ·)

/-- The names of rule R67 as they are written. -/
def asmNames : List (List Char × AsmName) := [
  (['P', 'A', 'C', 'K', 'R', 'G', 'B'], .packrgb),
  (['P', 'A', 'C', 'K', 'A', 'R', 'G', 'B'], .packargb),
  (['U', 'N', 'P', 'A', 'C', 'K', 'B'], .unpackb),
  (['U', 'N', 'P', 'A', 'C', 'K', 'G'], .unpackg),
  (['U', 'N', 'P', 'A', 'C', 'K', 'R'], .unpackr),
  (['U', 'N', 'P', 'A', 'C', 'K', 'A'], .unpacka),
  (['H', 'S', 'V'], .hsv),
  (['F', 'A', 'D', 'E'], .fade),
  (['B', 'L', 'E', 'N', 'D'], .blend),
  (['G', 'R', 'A', 'D'], .grad),
  (['L', 'D', 'P', 'X'], .ldpx),
  (['S', 'T', 'P', 'X'], .stpx),
  (['R', 'G', 'B'], .rgb),
  (['A', 'R', 'G', 'B'], .argb),
  (['G', 'E', 'T', 'C', 'O', 'L', 'O', 'R'], .getcolor),
  (['S', 'E', 'T', 'C', 'O', 'L', 'O', 'R'], .setcolor),
  (['U', 'N', 'P', 'A', 'C', 'K'], .unpack)]

/-- One line of a listing; a comment starts with `;` (rule R67). -/
def parseLine (text : List Char) : Option AsmLine :=
  let body := trimSpaces (text.takeWhile (· != ';'))
  let name := body.takeWhile (· != ' ')
  let rest := trimSpaces (body.dropWhile (· != ' '))
  (asmNames.find? (·.1 == name)).bind fun entry =>
    (if rest = [] then some [] else parseOperands (splitCommas rest)).map fun ops => ⟨entry.2, ops⟩

end Sys2Proof.Machine
end

