-- ==== Sys2Proof/Machine/HostAgent.lean ====
section
/-! DEFINITION. The host, the one requester (00_scope.md rule R5): it presents one request at a time, reads the response, and
copies earlier results into later requests (30_encoding.md rule R67). With it, the gradient as a buffer (41_color_math.md rule
R97). -/

namespace Sys2Proof.Machine

/-- The host presents one request, and the unit answers it: one step. -/
def ask (i : Instr) (s : State) : Host.Outcome State Fault Refusal :=
  step { s with inputs := .request (encode i) :: s.inputs }

/-- The host issues the lines of a listing in order, each after the response to the one before; `ys` are the results so far.
`none` where a line has no instruction. -/
def runListing : List AsmLine → List Word → State → Option (Host.Outcome State Fault Refusal)
  | [], _, s => some (.next s)
  | line :: rest, ys, s =>
    match assemble ys line with
    | none => none
    | some i =>
      match ask i s with
      | .next t => runListing rest (ys ++ (t.responses.head?.map (·.y)).toList) t
      | .fault r => some (.fault r)
      | .refused r => some (.refused r)

/-- `GRAD start, stop, steps, i` followed by `STPX i, Y` for `i = 0 .. k - 1` (rule R97); the two requests of index `i` have the
numbers `2 * i` and `2 * i + 1`. -/
def gradientListing (start stop steps : Word) : Nat → List AsmLine
  | 0 => []
  | i + 1 => gradientListing start stop steps i ++
      [⟨.grad, [.hex start, .hex stop, .hex steps, .int i]⟩, ⟨.stpx, [.int i, .result (2 * i)]⟩]

end Sys2Proof.Machine
end

