-- ==== Sys2Proof/Machine/Unit.lean ====
section
/-! DEFINITION. The step of the unit as 10_state.md rule R29 gives it: "a function `(LAYOUT, PX, request) -> (PX', response)`". The
request is its argument and the response its result; neither is in the machine state `Cu`, and `STORE_OWNED` is not read. `step` in
Machine/Step.lean runs the same operations inside the closed system, and `Obligations.StepIsTransition` says that it is this
function there. -/

namespace Sys2Proof.Machine

/-- One decoded operation: `PX' = PX` for every operation but `STPX` (rule R29). -/
def perform (layout : Layout) (px : Option Store) (i : Instr) : Reply :=
  match i with
  | .packrgb r g b => .next (px, packrgbResponse r g b)
  | .packargb a r g b => .next (px, packargbResponse a r g b)
  | .unpackb c => .next (px, unpackChannel c 0)
  | .unpackg c => .next (px, unpackChannel c 1)
  | .unpackr c => .next (px, unpackChannel c 2)
  | .unpacka c => .next (px, unpackChannel c 3)
  | .hsv sd vd hue sat val => .next (px, hsvResponse sd vd hue sat val)
  | .fade c brightness => .next (px, fadeResponse c brightness)
  | .blend ca alpha cb => .next (px, blendResponse ca alpha cb)
  | .grad start stop steps index => .next (px, gradResponse start stop steps index)
  | .ldpx index => ldpxReply layout px index
  | .stpx index c => stpxReply layout px index c

/-- `(LAYOUT, PX, request) -> (PX', response)` (rule R29); a reserved command word gets its own response (30_encoding.md rule R64;
log entry 6). -/
def transition (layout : Layout) (px : Option Store) (req : BitVec 160) : Reply :=
  match decode req with
  | .ok i => perform layout px i
  | .error _ => .next (px, .reserved)

/-- What a finite sequence of requests gives: the store at the end and the responses in the order of the requests
(70_reset_and_hazards.md rule R149). -/
def transitions (layout : Layout) : Option Store → List (BitVec 160) →
    Host.Outcome (Option Store × List Response) Fault Refusal
  | px, [] => .next (px, [])
  | px, req :: reqs =>
    match transition layout px req with
    | .next (px', r) =>
      match transitions layout px' reqs with
      | .next (px'', rs) => .next (px'', r :: rs)
      | .fault f => .fault f
      | .refused f => .refused f
    | .fault f => .fault f
    | .refused f => .refused f

end Sys2Proof.Machine
end

