-- ==== Sys2Proof/Safety.lean ====
section
/-! DEFINITION. What a safe state of the unit is, and the store as the statements read it. -/

namespace Sys2Proof.Machine

/-- The state is one the spec allows: an attached store is a store of rule R20 (canonical, within its size, within the bound of
rule R25); an owned store is attached (rule R26: its lifetime is the buffer's) and holds whole pixels only (rule R141:
`N * stride` bytes); no response has `OOB` and `ILL` both 1 (rule R65). -/
abbrev State.Inv (s : State) : Prop :=
  (∀ st ∈ s.px, st.wf) ∧
  (s.storeOwned = true → ∃ st ∈ s.px, st.size % s.layout.stride = 0) ∧
  (∀ r ∈ s.responses, ¬ (r.oob = true ∧ r.ill = true))

/-- The byte the store holds at an address: `none` where there is no such address or no store (rules R40, R51). -/
def State.byteAt (s : State) (addr : Nat) : Option Byte := s.px.bind (·.byteAt addr)

end Sys2Proof.Machine
end

