-- ==== Sys2Proof/Certificates/Slice0/Obligations.lean ====
section
/-! DEFINITION. The statements for the provers. They are about single operations, single steps and runs of the machine, over every
state and every operand. Where a statement rests on a choice the spec marks as its own (92_eei_decisions.md D<n>) or on one of
the model's log entries, its docstring says so. -/

namespace Sys2Proof.Machine

/-- The 160-bit request with these five words (30_encoding.md rule R60). -/
def reqBits (cmd a b c d : Word) : BitVec 160 := d ++ c ++ b ++ a ++ cmd

/-- Lane `k` of a word as a number: bits `8k + 7 .. 8k` (41_color_math.md rule R100). -/
def lane (c : Word) (k : Nat) : Nat := (c.extractLsb' (8 * k) 8).toNat

/-- The 24-bit colour with these channels: bits 31:24 are 0, then red, green, blue. -/
def colour3 (r g b : Nat) : Word := 0#8 ++ BitVec.ofNat 8 r ++ BitVec.ofNat 8 g ++ BitVec.ofNat 8 b

/-- The instruction completes with the response `Y = y`, `OOB = oob`, `ILL = 0`, and changes nothing else: not the store, not the
layout, not the ownership, not what is still to come. -/
def AnswersWith (i : Instr) (s : State) (y : Word) (oob : Bool) : Prop :=
  exec i s = .next { s with responses := { y := y, oob := oob, ill := false } :: s.responses }

/-- The clamp of rule R90, by cases. -/
def clamped (w : Word) : Nat := if w.toInt < 0 then 0 else if 255 < w.toInt then 255 else w.toInt.toNat

/-- A channel of a blend, in the document's words `(a*(255-alpha) + b*alpha) >> 8`, the shift as a division by 256. -/
def blended (a b al : Nat) : Nat := (a * (255 - al) + b * al) / 256

/-- The command word of `HSV` for each pair of default bits, written out (30_encoding.md rule R63). -/
def hsvWord : Bool → Bool → Word
  | false, false => 0x00000004#32
  | true, false => 0x00000104#32
  | false, true => 0x00000204#32
  | true, true => 0x00000304#32

end Sys2Proof.Machine

open Sys2Proof Sys2Proof.Machine

/-! Channel codec -/

/-- 40_channel_codec.md rule R81, whole: the command word, the ignored word `D`, the bit fields of `Y`, the response bits, nothing
else changed, and the round trip. -/
def Obligations.PackRgbPacksLowBytes : Prop :=
  (∀ (a b c d : Word) (s : State),
    decode (reqBits 0x00000001#32 a b c d) = .ok (.packrgb a b c) ∧
    AnswersWith (.packrgb a b c) s (0#8 ++ a.extractLsb' 0 8 ++ b.extractLsb' 0 8 ++ c.extractLsb' 0 8) false) ∧
  (∀ r g b : Nat, r ≤ 255 → g ≤ 255 → b ≤ 255 →
    ch (word (rgb r g b : Nat)) 2 = r ∧ ch (word (rgb r g b : Nat)) 1 = g ∧ ch (word (rgb r g b : Nat)) 0 = b)

/-- 40_channel_codec.md rule R82, whole: the command word, the bit fields of `Y`, the response bits, nothing else changed, and the
round trip. -/
def Obligations.PackArgbPacksLowBytes : Prop :=
  (∀ (a b c d : Word) (s : State),
    decode (reqBits 0x00000002#32 a b c d) = .ok (.packargb a b c d) ∧
    AnswersWith (.packargb a b c d) s
      (a.extractLsb' 0 8 ++ b.extractLsb' 0 8 ++ c.extractLsb' 0 8 ++ d.extractLsb' 0 8) false) ∧
  (∀ a r g b : Nat, a ≤ 255 → r ≤ 255 → g ≤ 255 → b ≤ 255 →
    ch (word (argb a r g b : Nat)) 3 = a ∧ ch (word (argb a r g b : Nat)) 2 = r ∧
    ch (word (argb a r g b : Nat)) 1 = g ∧ ch (word (argb a r g b : Nat)) 0 = b)

/-- 40_channel_codec.md rules R84, R85, R86, R87, whole: each unpack's command word, its ignored words, the channel it extracts,
zero-extended, and nothing else changed. -/
def Obligations.UnpackExtractsOneChannel : Prop :=
  ∀ (a b c d : Word) (s : State),
    (decode (reqBits 0x00000003#32 a b c d) = .ok (.unpackb a) ∧
      AnswersWith (.unpackb a) s (0#24 ++ a.extractLsb' 0 8) false) ∧
    (decode (reqBits 0x00000103#32 a b c d) = .ok (.unpackg a) ∧
      AnswersWith (.unpackg a) s (0#24 ++ a.extractLsb' 8 8) false) ∧
    (decode (reqBits 0x00000203#32 a b c d) = .ok (.unpackr a) ∧
      AnswersWith (.unpackr a) s (0#24 ++ a.extractLsb' 16 8) false) ∧
    (decode (reqBits 0x00000303#32 a b c d) = .ok (.unpacka a) ∧
      AnswersWith (.unpacka a) s (0#24 ++ a.extractLsb' 24 8) false)

/-- 95_test_vectors.md section 2.3: what the four unpacks take out of a word, `PACKARGB` puts together again into that word, and
`PACKRGB` into its low 24 bits. -/
def Obligations.UnpackThenPackRestoresColour : Prop :=
  ∀ (c : Word) (s : State), ∃ a r g b : Word,
    AnswersWith (.unpacka c) s a false ∧ AnswersWith (.unpackr c) s r false ∧
    AnswersWith (.unpackg c) s g false ∧ AnswersWith (.unpackb c) s b false ∧
    AnswersWith (.packargb a r g b) s c false ∧
    AnswersWith (.packrgb r g b) s (c &&& 0x00FFFFFF#32) false

/-! HSV -/

/-- 41_color_math.md section 2, `HSV`, whole: the four command words, the ignored words, and the conversion for every hue, sat and
val. The hue is wrapped by the floored modulus 255 and the three sections are told by the wrapped hue itself (0..84, 85..169,
170..254). Outside `-255 <= hue <= 254` the value rests on the spec's decision D12, and for sat or val above 255 on D13 (log entry
14). That an ignored sat or val word is decoded as 0 is the model's choice (log entry 15): the spec says only that it has no
effect. -/
def Obligations.HsvConvertsInThreeSections : Prop :=
  (∀ (sd vd : Bool) (a b c d : Word),
    decode (reqBits (hsvWord sd vd) a b c d) =
      .ok (.hsv sd vd a (if sd then 0#32 else b) (if vd then 0#32 else c))) ∧
  (∀ (sd vd : Bool) (hue sat val : Word) (s : State) (h0 S V floor amp offset up down : Nat),
    h0 = (hue.toInt % 255).toNat →
    S = (if sd then 255 else sat.toNat % 256) →
    V = (if vd then 255 else val.toNat % 256) →
    floor = V * (255 - S) / 255 → amp = V - floor → offset = h0 * 192 / 255 % 64 →
    up = offset * amp * 4 / 255 + floor → down = (63 - offset) * amp * 4 / 255 + floor →
    AnswersWith (.hsv sd vd hue sat val) s
      (if h0 ≤ 84 then colour3 down up floor
       else if h0 ≤ 169 then colour3 floor down up
       else colour3 up floor down) false)

/-- 41_color_math.md section 2 (what rule R92 derives) and 95_test_vectors.md section 3.3: every channel of the result lies between
brightnessFloor and val, one of them is brightnessFloor, and bits 31:24 are 0; sat 0 gives a grey and val 0 gives black. That a sat
or val word above 255 counts by its low 8 bits, and a hue outside `-255 <= hue <= 254` by its floored modulus, are the spec's
decisions D13 and D12 (log entry 14). -/
def Obligations.HsvChannelsBetweenFloorAndValue : Prop :=
  ∀ (sd vd : Bool) (hue sat val : Word) (s : State), ∃ y : Word,
    AnswersWith (.hsv sd vd hue sat val) s y false ∧ lane y 3 = 0 ∧
    ∃ S V floor : Nat, S = (if sd then 255 else sat.toNat % 256) ∧ V = (if vd then 255 else val.toNat % 256) ∧
      floor = V * (255 - S) / 255 ∧
      (∀ k, k < 3 → floor ≤ lane y k ∧ lane y k ≤ V) ∧
      (∃ k, k < 3 ∧ lane y k = floor) ∧
      (S = 0 → y = colour3 V V V) ∧ (V = 0 → y = 0#32)

/-- 41_color_math.md section 2 (a corner case of the rule): the result depends on hue only through `hue mod 255`, on `B` only
through its low 8 bits and `SD`, on `C` only through its low 8 bits and `VD`. Rests on the decisions D12 and D13 (log entry 14). -/
def Obligations.HsvReadsHueModulo255AndLowBytes : Prop :=
  ∀ (sd vd : Bool) (hue hue' sat sat' val val' : Word) (s : State),
    hue.toInt % 255 = hue'.toInt % 255 →
    (sd = true ∨ sat.toNat % 256 = sat'.toNat % 256) →
    (vd = true ∨ val.toNat % 256 = val'.toNat % 256) →
    exec (.hsv sd vd hue sat val) s = exec (.hsv sd vd hue' sat' val') s

/-! FADE, BLEND, GRAD -/

/-- 41_color_math.md section 3, `FADE`, whole: the command word, the ignored words, the fast path for a brightness of 255 and above
(the clamp comes first: decision D14; it is of the signed word: D29), black for 0 and below, and the scaled channels between. Bits
31:24 are dropped off the fast path (decision D15; log entry 14). -/
def Obligations.FadeScalesChannels : Prop :=
  ∀ (a b c d : Word) (s : State),
    decode (reqBits 0x00000005#32 a b c d) = .ok (.fade a b) ∧
    (255 ≤ b.toInt → AnswersWith (.fade a b) s a false) ∧
    (b.toInt ≤ 0 → AnswersWith (.fade a b) s 0#32 false) ∧
    (∀ br : Nat, br < 255 → b.toInt = br →
      AnswersWith (.fade a b) s
        (colour3 (lane a 2 * br / 256) (lane a 1 * br / 256) (lane a 0 * br / 256)) false)

/-- 41_color_math.md section 3: a fade never brightens a channel, and a greater brightness never gives a darker one. Over all signed
brightnesses this rests on the spec's decisions D14 (above 255) and D29 (a word with bit 31 set is negative and counts as 0); the
fourth lane on D15 (log entry 14). -/
def Obligations.FadeIsMonotoneAndNeverBrightens : Prop :=
  ∀ (c b b' : Word) (s : State), b.toInt ≤ b'.toInt → ∃ y y' : Word,
    AnswersWith (.fade c b) s y false ∧ AnswersWith (.fade c b') s y' false ∧
    ∀ k, k < 4 → lane y k ≤ lane y' k ∧ lane y' k ≤ lane c k

/-- 41_color_math.md section 4, `BLEND`, whole: the command word, the ignored word, the clamp of alpha (decision D29), and the three
blended channels, with no exception at alpha 0 or 255 (90_conflicts.md C1). Bits 31:24 are dropped and zero (decision D15; log
entry 14). -/
def Obligations.BlendInterpolatesChannels : Prop :=
  ∀ (a b c d : Word) (s : State),
    decode (reqBits 0x00000006#32 a b c d) = .ok (.blend a b c) ∧
    AnswersWith (.blend a b c) s
      (colour3 (blended (lane a 2) (lane c 2) (clamped b)) (blended (lane a 1) (lane c 1) (clamped b))
        (blended (lane a 0) (lane c 0) (clamped b))) false

/-- 41_color_math.md section 4, the channel blend, said of the lanes that `BLEND` answers: the formula, at most 254, one less than a
non-zero channel blended with itself, and the two ends, where the formula wins over the document's own test (90_conflicts.md C1).
The clamp of the signed alpha is the spec's decision D29, the three lanes its decision D15 (log entry 14). -/
def Obligations.BlendChannelNeverReaches255 : Prop :=
  ∀ (ca alpha cb : Word) (s : State), ∃ y : Word,
    AnswersWith (.blend ca alpha cb) s y false ∧
    ∀ k, k < 3 →
      lane y k = (lane ca k * (255 - clamped alpha) + lane cb k * clamped alpha) / 256 ∧
      lane y k ≤ 254 ∧
      (lane ca k = lane cb k → lane y k = lane ca k - 1) ∧
      (clamped alpha = 0 → lane y k = lane ca k - 1) ∧
      (clamped alpha = 255 → lane y k = lane cb k - 1)

/-- 41_color_math.md section 5, `GRAD`, whole: the command word, the clamped step count in the range check, at the end and as the denominator,
the sentinel with `OOB`, the exact ends and the interior blend with its exact `255 * i` (decisions D15, D16, D27; log entry 14). -/
def Obligations.GradSamplesByIndex : Prop :=
  ∀ (a b c d : Word) (s : State) (n i : Int),
    n = (if c.toInt < 2 then 2 else c.toInt) → i = d.toInt →
    decode (reqBits 0x00000007#32 a b c d) = .ok (.grad a b c d) ∧
    (i < 0 ∨ n ≤ i → AnswersWith (.grad a b c d) s 0xFFFFFFFF#32 true) ∧
    (i = 0 → AnswersWith (.grad a b c d) s a false) ∧
    (i = n - 1 → AnswersWith (.grad a b c d) s b false) ∧
    (0 < i → i < n - 1 → ∀ al : Nat, (al : Int) = 255 * i / n →
      AnswersWith (.grad a b c d) s
        (colour3 (blended (lane a 2) (lane b 2) al) (blended (lane a 1) (lane b 1) al)
          (blended (lane a 0) (lane b 0) al)) false)

/-- 41_color_math.md section 5: each interior index `i` of a gradient is `blend(startColor, floor(255*i/steps), endColor)`, and that
alpha never reaches 255. That the quotient is exact for every index is the spec's decision D27, that `steps` is the clamped count
everywhere its decision D16 (log entry 14). -/
def Obligations.GradInteriorIsBlend : Prop :=
  ∀ (start stop steps index alpha : Word) (s : State) (n : Int),
    n = max 2 steps.toInt → 0 < index.toInt → index.toInt < n - 1 → alpha.toInt = 255 * index.toInt / n →
    exec (.grad start stop steps index) s = exec (.blend start alpha stop) s ∧ 0 ≤ alpha.toInt ∧ alpha.toInt ≤ 254

/-- 41_color_math.md section 6: a lane of the result of `FADE`, `BLEND` and `GRAD` depends, for red, green and blue, on the same
lane of the colour operands only; nothing carries between lanes (decision D15). -/
def Obligations.LanesDoNotMix : Prop :=
  ∀ (ca ca' cb cb' w w' : Word) (s : State) (k : Nat), k < 3 → lane ca k = lane ca' k → lane cb k = lane cb' k →
    (∃ y y', AnswersWith (.fade ca w) s y false ∧ AnswersWith (.fade ca' w) s y' false ∧ lane y k = lane y' k) ∧
    (∃ y y', AnswersWith (.blend ca w cb) s y false ∧ AnswersWith (.blend ca' w cb') s y' false ∧
      lane y k = lane y' k) ∧
    (∃ y y' oob, AnswersWith (.grad ca cb w w') s y oob ∧ AnswersWith (.grad ca' cb' w w') s y' oob ∧
      lane y k = lane y' k)

/-! Pixel access -/

/-- 42_pixel_access.md, `LDPX`, whole: the command word, the ignored words, the range check against the store's size at this
request, the sentinel with `OOB`, and the bytes of the pixel put together most significant channel first. The word of the sentinel
and the bit `OOB` are the spec's decision D8, the size read at each request its decision D18. -/
def Obligations.LdpxReadsPixel : Prop :=
  ∀ (a b c d : Word) (s : State) (st : Store) (i : Nat), s.px = some st →
    decode (reqBits 0x00000008#32 a b c d) = .ok (.ldpx a) ∧
    (a.toInt < 0 ∨ ((st.size / s.layout.stride : Nat) : Int) ≤ a.toInt → AnswersWith (.ldpx a) s 0xFFFFFFFF#32 true) ∧
    (a.toInt = i → i < st.size / 3 → s.layout = .rgb →
      ∃ b0 b1 b2, st.byteAt (i * 3) = some b0 ∧ st.byteAt (i * 3 + 1) = some b1 ∧ st.byteAt (i * 3 + 2) = some b2 ∧
        AnswersWith (.ldpx a) s (0#8 ++ b0 ++ b1 ++ b2) false) ∧
    (a.toInt = i → i < st.size / 4 → s.layout = .argb →
      ∃ b0 b1 b2 b3, st.byteAt (i * 4) = some b0 ∧ st.byteAt (i * 4 + 1) = some b1 ∧
        st.byteAt (i * 4 + 2) = some b2 ∧ st.byteAt (i * 4 + 3) = some b3 ∧
        AnswersWith (.ldpx a) s (b0 ++ b1 ++ b2 ++ b3) false)

/-- 42_pixel_access.md, `STPX`, whole: the command word, the ignored words, nothing written out of range, and in range exactly the
bytes of the pixel, most significant channel first, every other byte and the size as before; `Y` is 0. `OOB` on a write is the
spec's decision D20, the bits dropped under `RGB` its decision D19. The premise `st.wf` is part of the invariant
(`StepKeepsInvariant`). -/
def Obligations.StpxWritesPixel : Prop :=
  ∀ (a b c d : Word) (s : State) (st : Store) (i : Nat), s.px = some st → st.wf →
    decode (reqBits 0x00000009#32 a b c d) = .ok (.stpx a b) ∧
    (a.toInt < 0 ∨ ((st.size / s.layout.stride : Nat) : Int) ≤ a.toInt → AnswersWith (.stpx a b) s 0#32 true) ∧
    (a.toInt = i → i < st.size / 3 → s.layout = .rgb →
      ∃ st', exec (.stpx a b) s = .next { s with
          px := some st', responses := { y := 0#32, oob := false, ill := false } :: s.responses } ∧
        st'.size = st.size ∧
        st'.byteAt (i * 3) = some (b.extractLsb' 16 8) ∧ st'.byteAt (i * 3 + 1) = some (b.extractLsb' 8 8) ∧
        st'.byteAt (i * 3 + 2) = some (b.extractLsb' 0 8) ∧
        ∀ k, k < i * 3 ∨ i * 3 + 3 ≤ k → st'.byteAt k = st.byteAt k) ∧
    (a.toInt = i → i < st.size / 4 → s.layout = .argb →
      ∃ st', exec (.stpx a b) s = .next { s with
          px := some st', responses := { y := 0#32, oob := false, ill := false } :: s.responses } ∧
        st'.size = st.size ∧
        st'.byteAt (i * 4) = some (b.extractLsb' 24 8) ∧ st'.byteAt (i * 4 + 1) = some (b.extractLsb' 16 8) ∧
        st'.byteAt (i * 4 + 2) = some (b.extractLsb' 8 8) ∧ st'.byteAt (i * 4 + 3) = some (b.extractLsb' 0 8) ∧
        ∀ k, k < i * 4 ∨ i * 4 + 4 ≤ k → st'.byteAt k = st.byteAt k)

/-- The frame of `STPX` (42_pixel_access.md): for every address that the meaning's own `pixelAddr` gives as the address stored to,
every byte outside the `stride` bytes from there reads as before; out of range every byte does; and the layout, the ownership,
the size and what is still to come are unchanged. -/
def Obligations.StpxFrame : Prop :=
  ∀ (index c : Word) (s t : State) (st : Store), s.px = some st → st.wf → exec (.stpx index c) s = .next t →
    t.layout = s.layout ∧ t.storeOwned = s.storeOwned ∧ t.inputs = s.inputs ∧
    t.px.map (·.size) = some st.size ∧
    (∃ r, t.responses = r :: s.responses) ∧
    (∀ addr, addr = pixelAddr s.layout (sint index).toNat →
      ∀ k, k < addr ∨ addr + s.layout.stride ≤ k → t.byteAt k = s.byteAt k) ∧
    (inRange (sint index) (st.length s.layout) = false → ∀ k, t.byteAt k = s.byteAt k)

/-- The frame of the eleven instructions that store nothing (`PACKRGB`, `PACKARGB`, the four unpacks, `HSV`, `FADE`, `BLEND`,
`GRAD`, `LDPX`): every byte of the store reads as before and only a response is added. -/
def Obligations.StorelessFrame : Prop :=
  ∀ (i : Instr) (s t : State), i.op ≠ .stpx → exec i s = .next t →
    (∀ k, t.byteAt k = s.byteAt k) ∧ t.px = s.px ∧ t.layout = s.layout ∧ t.storeOwned = s.storeOwned ∧
    t.inputs = s.inputs ∧ ∃ r, t.responses = r :: s.responses

/-- 42_pixel_access.md (what rule R112 derives): in range, `STPX i, c` then `LDPX i` gives back all 32 bits under `ARGB` and the low
24 bits under `RGB`. -/
def Obligations.PixelRoundTrip : Prop :=
  ∀ (index c : Word) (s : State) (st : Store), s.px = some st → st.wf →
    0 ≤ index.toInt → index.toInt < (st.size / s.layout.stride : Nat) →
    ∃ t, exec (.stpx index c) s = .next t ∧
      AnswersWith (.ldpx index) t (match s.layout with | .rgb => c &&& 0x00FFFFFF#32 | .argb => c) false

/-- 42_pixel_access.md (what rule R112 derives): an `STPX` to pixel `i`, in range or not, does not change what `LDPX j` answers for
any `j` other than `i`. -/
def Obligations.StpxLeavesOtherPixels : Prop :=
  ∀ (index j c : Word) (s t : State) (st : Store), s.px = some st → st.wf → j ≠ index →
    exec (.stpx index c) s = .next t →
    ∃ y oob, AnswersWith (.ldpx j) s y oob ∧ AnswersWith (.ldpx j) t y oob

/-- 20_memory.md section 5: the bytes past `length * stride` belong to no pixel; no instruction changes them, and none reads them: on
two stores of one size that agree below that address every instruction completes with the same response and leaves stores that
agree there. -/
def Obligations.TrailingBytesNeverAccessed : Prop :=
  (∀ (i : Instr) (s t : State) (st : Store) (k : Nat), s.px = some st → st.wf →
    st.size / s.layout.stride * s.layout.stride ≤ k → exec i s = .next t → t.byteAt k = s.byteAt k) ∧
  (∀ (i : Instr) (s : State) (st st' : Store), s.px = some st → st.wf → st'.wf → st'.size = st.size →
    (∀ k, k < st.size / s.layout.stride * s.layout.stride → st'.byteAt k = st.byteAt k) →
    ∃ (t t' : State) (r : Response), exec i s = .next t ∧ exec i { s with px := some st' } = .next t' ∧
      t.responses = r :: s.responses ∧ t'.responses = r :: s.responses ∧
      ∀ k, k < st.size / s.layout.stride * s.layout.stride → t'.byteAt k = t.byteAt k)

/-- 20_memory.md section 4: a read has no side effect, so a second `LDPX` of the same index gives the same `Y` and `OOB`. -/
def Obligations.LdpxIsIdempotent : Prop :=
  ∀ (index : Word) (s t : State), exec (.ldpx index) s = .next t →
    ∃ y oob, AnswersWith (.ldpx index) s y oob ∧ AnswersWith (.ldpx index) t y oob

/-! Rules about all instructions -/

/-- 70_reset_and_hazards.md section 2 (what rule R142 derives): the ten operations that do not touch the store depend on no state;
each gives the same response in every state, store or not, and always completes. -/
def Obligations.ColourOperationsIgnoreState : Prop :=
  ∀ i : Instr, i.op ≠ .ldpx → i.op ≠ .stpx →
    ∃ r : Response, r.ill = false ∧ ∀ s : State, exec i s = .next { s with responses := r :: s.responses }

/-- 10_state.md section 3: "The ownership tag changes no operation's result"; the same instruction in the same state but for the tag
ends the same way. -/
def Obligations.OwnershipChangesNoResult : Prop :=
  ∀ (i : Instr) (s : State) (owned : Bool),
    exec i { s with storeOwned := owned } =
      match exec i s with
      | .next t => .next { t with storeOwned := owned }
      | .fault f => .fault f
      | .refused r => .refused r

/-- 10_state.md sections 1 and 2 (rules R20, R24): no instruction changes the layout, the ownership, the size of the store or whether
one is attached; only `STPX` changes bytes. -/
def Obligations.OnlyStpxChangesTheStore : Prop :=
  ∀ (i : Instr) (s t : State), exec i s = .next t →
    t.layout = s.layout ∧ t.storeOwned = s.storeOwned ∧ t.px.map (·.size) = s.px.map (·.size) ∧
    (t.px ≠ s.px → ∃ index c, i = .stpx index c)

/-- 20_memory.md section 8 and 60_exceptions.md section 1: an instruction stops only where a pixel is accessed with no store attached
(70_reset_and_hazards.md section 3; log entry 10); the store port is never asked for a byte it does not have, and no
instruction is refused. -/
def Obligations.InstructionsStopOnlyWithoutStore : Prop :=
  (∀ (index c : Word) (s : State), s.px = none →
    exec (.ldpx index) s = .fault .storeAbsent ∧ exec (.stpx index c) s = .fault .storeAbsent) ∧
  (∀ (i : Instr) (s : State) (f : Fault), exec i s = .fault f →
    s.px = none ∧ f = .storeAbsent ∧ (i.op = .ldpx ∨ i.op = .stpx)) ∧
  (∀ (i : Instr) (s : State) (r : Refusal), exec i s ≠ .refused r)

/-- 30_encoding.md section 5: `OOB` is 1 exactly where an index was checked and found out of range: outside `0 .. max(2, steps) - 1`
for `GRAD` (41_color_math.md sections 1 and 5; the clamped count is the spec's decision D16, log entry 14), outside
`0 .. length - 1` for `LDPX` and `STPX` (20_memory.md section 6, 42_pixel_access.md; the size asked for is decision D18), and never
for the nine operations that check none. The bit itself is decision D8, on a write D20. -/
def Obligations.OobExactlyWhenIndexOutOfRange : Prop :=
  ∀ (i : Instr) (s t : State) (st : Store) (r : Response), s.px = some st → exec i s = .next t →
    t.responses = r :: s.responses →
    (r.oob = true ↔
      match i with
      | .grad _ _ steps index => index.toInt < 0 ∨ max 2 steps.toInt ≤ index.toInt
      | .ldpx index => index.toInt < 0 ∨ (st.size / s.layout.stride : Nat) ≤ index.toInt
      | .stpx index _ => index.toInt < 0 ∨ (st.size / s.layout.stride : Nat) ≤ index.toInt
      | _ => False)

/-! Encoding -/

/-- Every well-formed instruction, with every operand word, is read back from its own request (30_encoding.md sections 1 to 3). That
the well-formed `HSV` are those with 0 in an ignored word is the model's choice (log entry 15). -/
def Obligations.DecodeOfEncode : Prop :=
  ∀ i : Instr, i.wf = true → decode (encode i) = .ok i

/-- Every request that decodes gives a well-formed instruction, whose own request has the same command word (the default bits of
`HSV` among it) and decodes to the same instruction. That a decoded `HSV` has 0 in its ignored words, and so is well-formed, is the
model's choice (log entry 15): the spec says only that such a word has no effect. -/
def Obligations.EncodeOfDecode : Prop :=
  ∀ (req : BitVec 160) (i : Instr), decode req = .ok i →
    i.wf = true ∧ (encode i).extractLsb' 0 32 = req.extractLsb' 0 32 ∧ decode (encode i) = .ok i

/-- 30_encoding.md section 4: a request is rejected exactly where its command word is reserved, in the section's own list; and the
name of the rejection is one of the list's cases that holds (the order of the names is log entry 16). -/
def Obligations.RejectedExactlyWhenReserved : Prop :=
  ∀ (req : BitVec 160) (opc : BitVec 8) (mod : BitVec 2) (high : BitVec 22),
    opc = req.extractLsb' 0 8 → mod = req.extractLsb' 8 2 → high = req.extractLsb' 10 22 →
    ((∃ e, decode req = .error e) ↔
      opc = 0x00#8 ∨ 0x0A#8 ≤ opc ∨ high ≠ 0#22 ∨
      (opc ∈ [0x01#8, 0x02#8, 0x05#8, 0x06#8, 0x07#8, 0x08#8, 0x09#8] ∧ mod ≠ 0#2)) ∧
    (decode req = .error .reservedBitSet → high ≠ 0#22) ∧
    (decode req = .error .unassignedOpcode → opc = 0x00#8 ∨ 0x0A#8 ≤ opc) ∧
    (decode req = .error .modNotZero → mod ≠ 0#2)

/-- 30_encoding.md section 2 (rule R68): a word the operation ignores changes neither the response nor the store: two requests that
differ only there step alike, whatever they hold. -/
def Obligations.IgnoredWordsChangeNothing : Prop :=
  ∀ (cmd a b c d b' c' d' : Word) (s : State) (rest : List Input),
    (cmd ∈ [0x00000003#32, 0x00000103#32, 0x00000203#32, 0x00000303#32, 0x00000008#32]) ∨
    (cmd ∈ [0x00000005#32, 0x00000009#32] ∧ b = b') ∨
    (cmd ∈ [0x00000001#32, 0x00000006#32] ∧ b = b' ∧ c = c') ∨
    (cmd = 0x00000004#32 ∧ b = b' ∧ c = c') ∨ (cmd = 0x00000104#32 ∧ c = c') ∨
    (cmd = 0x00000204#32 ∧ b = b') ∨ cmd = 0x00000304#32 →
    step { s with inputs := .request (reqBits cmd a b c d) :: rest } =
      step { s with inputs := .request (reqBits cmd a b' c' d') :: rest }

/-- Requests written out from 95_test_vectors.md section 8.3 and section 8.1 decode to what they stand for. The names of the three
rejections are the model's (log entry 16). -/
def Obligations.SampleRequestsDecode : Prop :=
  decode 0x0000000000000056000000340000001200000001#160 = .ok (.packrgb 0x12#32 0x34#32 0x56#32) ∧
  decode 0x0000000000000000000000008012345600000203#160 = .ok (.unpackr 0x80123456#32) ∧
  decode 0x0000000000000096000000C80000006400000004#160 = .ok (.hsv false false 100#32 200#32 150#32) ∧
  decode 0x0000000000000096000000000000006400000104#160 = .ok (.hsv true false 100#32 0#32 150#32) ∧
  decode 0x0000000300000005000000FF00FF000000000007#160 = .ok (.grad 0x00FF0000#32 0x000000FF#32 5#32 3#32) ∧
  decode 0x000000000000000000ABCDEF0000000100000009#160 = .ok (.stpx 1#32 0x00ABCDEF#32) ∧
  decode 0x0000000000000000000000000000000000000000#160 = .error .unassignedOpcode ∧
  decode 0x000000000000000000ABCDEF0000000000000209#160 = .error .modNotZero ∧
  decode 0x0000000000000000000000000000000000000404#160 = .error .reservedBitSet

/-- 30_encoding.md section 5 (rule R65): the response's 34 bits are `Y`, then `OOB`, then `ILL`. -/
def Obligations.ResponseBitFields : Prop :=
  ∀ r : Response, r.toBits.extractLsb' 0 32 = r.y ∧ r.toBits.getLsbD 32 = r.oob ∧ r.toBits.getLsbD 33 = r.ill

/-! Steps -/

/-- A step runs the decoded instruction: when the next input is a request that decodes to `i`, the step is `exec i` on the state with
that request taken; and so for a word placed by `withFetchWord`. That the waiting requests are a list in the state is the model's
choice (log entry 1), and that `withFetchWord` puts the 160 bits of a word first in it, as `decodeTableWord` reads them, is too (log
entry 3). -/
def Obligations.StepRunsDecodedInstruction : Prop :=
  (∀ (s : State) (req : BitVec 160) (rest : List Input) (i : Instr),
    s.inputs = .request req :: rest → decode req = .ok i → step s = exec i { s with inputs := rest }) ∧
  (∀ (s : State) (nbits w : Nat) (i : Instr),
    decodeTableWord nbits w = some i → step (s.withFetchWord nbits w) = exec i s)

/-- A step on the encoded request of any well-formed instruction is that instruction's meaning: the host's `ask` runs exactly it.
Which `HSV` are well-formed is log entry 15, that the request stands first in the state's list log entry 1. -/
def Obligations.AskRunsTheInstruction : Prop :=
  ∀ (i : Instr) (s : State), i.wf = true → ask i s = exec i s

/-- 10_state.md section 5 (what rule R29 derives): the step of the unit is a function of the layout, the store and the request, which
gives the store and one response; for every operation but `STPX` the store is the one before. A step of the closed system on a
waiting request is that function: it hands it the layout and the store, puts back the store and hands out the response, and reads
and changes nothing else. Where the request waits and where the response goes is the model's choice (log entries 1 and 2); the
answer to a reserved command word is log entry 6. -/
def Obligations.StepIsTransition : Prop :=
  (∀ (s : State) (req : BitVec 160) (rest : List Input), s.inputs = .request req :: rest →
    (∀ px r, transition s.layout s.px req = .next (px, r) →
      step s = .next { s with px := px, inputs := rest, responses := r :: s.responses }) ∧
    (∀ f, transition s.layout s.px req = .fault f → step s = .fault f) ∧
    (∀ f, transition s.layout s.px req ≠ .refused f)) ∧
  (∀ (layout : Layout) (px px' : Option Store) (req : BitVec 160) (r : Response),
    (∀ index c, decode req ≠ .ok (.stpx index c)) → transition layout px req = .next (px', r) → px' = px)

/-- 30_encoding.md section 4, decision D7: a reserved command word is answered `Y = 0`, `OOB = 0`, `ILL = 1`, in every state, and
changes nothing else. The model's choice (log entry 6) is to give this answer; the spec says that no theorem about the original
library should rest on it (93_implementation_defined.md U12). -/
def Obligations.ReservedRequestIsAnsweredIll : Prop :=
  ∀ (s : State) (req : BitVec 160) (rest : List Input) (e : Reserved),
    s.inputs = .request req :: rest → decode req = .error e →
    step s = .next { s with inputs := rest, responses := { y := 0#32, oob := false, ill := true } :: s.responses }

/-- 60_exceptions.md section 7 (log entry 7): between requests the unit does nothing. -/
def Obligations.NothingHappensBetweenRequests : Prop :=
  ∀ s : State, s.inputs = [] → step s = .next s

/-- 20_memory.md section 7, decision D21 (log entries 1, 8, 9): the external holder of an aliased store may read or write any byte
of it, or replace bytes and size by any within the bound; nothing else of the state changes. It may free the store
(70_reset_and_hazards.md section 3); that the state then has no store is the model's choice (log entry 10). An owned store has no
such holder. -/
def Obligations.HolderActsOnAliasedStoreOnly : Prop :=
  ∀ (s : State) (access : HolderAccess) (rest : List Input), s.inputs = .holder access :: rest →
    (s.storeOwned = true → step s = .next { s with inputs := rest }) ∧
    (∀ st, s.storeOwned = false → s.px = some st → st.wf →
      (∀ addr, access = .readByte addr → addr < st.size → step s = .next { s with inputs := rest }) ∧
      (∀ addr v, access = .writeByte addr v → addr < st.size →
        ∃ st', step s = .next { s with inputs := rest, px := some st' } ∧ st'.size = st.size ∧
          ∀ k, st'.byteAt k = if k = addr then some v else st.byteAt k) ∧
      (∀ contents, access = .rewrite contents → contents.length ≤ 2147483647 →
        ∃ st', step s = .next { s with inputs := rest, px := some st' } ∧ st'.size = contents.length ∧
          ∀ k, st'.byteAt k = contents[k]?) ∧
      (access = .free → step s = .next { s with inputs := rest, px := none }))

/-- 70_reset_and_hazards.md section 1 and 10_state.md section 4, decision D24 (log entry 12): form "allocate" gives an owned store of
`N * stride` zero bytes, so that `length = N` and every in-range `LDPX` answers 0, whatever the state before; it keeps nothing of
the old buffer. -/
def Obligations.ResetAllocatesZeroedStore : Prop :=
  ∀ (s : State) (layout : Layout) (n : Nat) (rest : List Input),
    s.inputs = .reset (.allocate layout n) :: rest → n * layout.stride ≤ 2147483647 →
    ∃ t st, step s = .next t ∧ t.px = some st ∧ t.layout = layout ∧ t.storeOwned = true ∧ t.inputs = rest ∧
      t.responses = s.responses ∧ st.size = n * layout.stride ∧ st.length layout = n ∧
      (∀ k, st.byteAt k = if k < n * layout.stride then some 0#8 else none) ∧
      (∀ index : Word, 0 ≤ index.toInt → index.toInt < n → AnswersWith (.ldpx index) t 0#32 false)

/-- 70_reset_and_hazards.md section 1 and 10_state.md section 4, decision D24 (log entry 12): form "wrap" attaches the supplied store,
not owned, its bytes and its size unchanged. -/
def Obligations.ResetWrapsSuppliedStore : Prop :=
  ∀ (s : State) (layout : Layout) (contents : List Byte) (rest : List Input),
    s.inputs = .reset (.wrap layout contents) :: rest → contents.length ≤ 2147483647 →
    ∃ t st, step s = .next t ∧ t.px = some st ∧ t.layout = layout ∧ t.storeOwned = false ∧ t.inputs = rest ∧
      t.responses = s.responses ∧ st.size = contents.length ∧
      st.length layout = contents.length / layout.stride ∧ ∀ k, st.byteAt k = contents[k]?

/-- 10_state.md section 4: the state after reset has an owned store of whole pixels, every byte 0, and no response. Which layout and
which length it has is the model's choice (log entry 4), and the statement does not say. -/
def Obligations.ResetStateIsZeroedAndOwned : Prop :=
  State.reset.storeOwned = true ∧ State.reset.responses = [] ∧ State.reset.inputs = [] ∧
  ∃ st n, State.reset.px = some st ∧ st.size = n * State.reset.layout.stride ∧ st.size ≤ 2147483647 ∧
    ∀ k, st.byteAt k = if k < st.size then some 0#8 else none

/-- 10_state.md rules R24, R26: what changes the configuration and an owned store. `LAYOUT` and `STORE_OWNED` change at a reset only;
the store of an owned buffer changes at an `STPX` or a reset only. -/
def Obligations.OwnedStoreChangesOnlyByStpxOrReset : Prop :=
  ∀ s t : State, step s = .next t →
    (t.layout ≠ s.layout ∨ t.storeOwned ≠ s.storeOwned → ∃ form rest, s.inputs = .reset form :: rest) ∧
    (s.storeOwned = true → t.px ≠ s.px →
      (∃ form rest, s.inputs = .reset form :: rest) ∨
      (∃ req rest index c, s.inputs = .request req :: rest ∧ decode req = .ok (.stpx index c)))

/-- 70_reset_and_hazards.md section 4: while a store is attached every request gets exactly one response, with `OOB` and `ILL` not
both 1, in one step, and the store stays attached with its size; without a store, every request that accesses no pixel does. For
a reserved command word the response is the model's choice to follow rule R64 (log entry 6). -/
def Obligations.EveryRequestGetsOneResponse : Prop :=
  ∀ (s : State) (req : BitVec 160) (rest : List Input), s.inputs = .request req :: rest →
    (s.px ≠ none ∨ ∀ i, decode req = .ok i → i.op ≠ .ldpx ∧ i.op ≠ .stpx) →
    ∃ t r, step s = .next t ∧ t.inputs = rest ∧ t.responses = r :: s.responses ∧ ¬ (r.oob = true ∧ r.ill = true) ∧
      t.px.map (·.size) = s.px.map (·.size)

/-- 70_reset_and_hazards.md section 4 (what rules R148 and R149 say of a run): the unit is never stuck. However many requests of
whatever bits the host presents, while a store is attached each is answered, one step each, in order: after as many steps the new
responses are those that the unit's own function gives request by request (`transitions`), one for each, the newest first, and the
store is the one it leaves, of the same size. Nothing else has changed. That a reserved command word is answered and not refused is
the model's choice to follow rule R64 (log entry 6); the two lists in the state are log entries 1 and 2. -/
def Obligations.EveryRunOfRequestsIsAnswered : Prop :=
  ∀ (reqs : List (BitVec 160)) (s : State), s.px ≠ none → s.inputs = reqs.map .request →
    ∃ px rs, transitions s.layout s.px reqs = .next (px, rs) ∧ rs.length = reqs.length ∧
      px.map (·.size) = s.px.map (·.size) ∧
      Sys2Proof.core.run reqs.length s = .next { s with px := px, inputs := [], responses := rs.reverse ++ s.responses }

/-- What stops a step (log entries 9, 10, 13): a fault is an access to a pixel with no store attached; a refusal is an access of
the external holder of an aliased store to a byte at or past the store's size, or any once the store is freed, or a store larger
than the bound, made by a rewrite or a reset. No other step stops. -/
def Obligations.StepStopsOnlyOutsideThePremises : Prop :=
  ∀ s : State,
    (∀ f, step s = .fault f → f = .storeAbsent ∧ s.px = none ∧
      ∃ req rest i, s.inputs = .request req :: rest ∧ decode req = .ok i ∧ (i.op = .ldpx ∨ i.op = .stpx)) ∧
    (∀ r, step s = .refused r →
      (r = .holderOutsideStore ∧ s.storeOwned = false ∧ ∃ access rest, s.inputs = .holder access :: rest ∧
        (s.px = none ∨ ∃ st addr, s.px = some st ∧ st.size ≤ addr ∧
          (access = .readByte addr ∨ ∃ v, access = .writeByte addr v))) ∨
      (r = .storeTooLarge ∧ ((∃ contents rest, s.inputs = .holder (.rewrite contents) :: rest ∧ s.storeOwned = false ∧
          s.px ≠ none ∧ 2147483647 < contents.length) ∨
        (∃ layout n rest, s.inputs = .reset (.allocate layout n) :: rest ∧ 2147483647 < n * layout.stride) ∨
        (∃ layout contents rest, s.inputs = .reset (.wrap layout contents) :: rest ∧ 2147483647 < contents.length))))

/-- The invariant holds after reset. -/
def Obligations.InvariantHoldsAtReset : Prop := State.reset.Inv

/-- Every step keeps the invariant: the store canonical (log entry 5), inside its size and within the bound (decision D18), an owned
store attached and made of whole pixels, and no response with `OOB` and `ILL` both 1. -/
def Obligations.StepKeepsInvariant : Prop :=
  ∀ s t : State, s.Inv → step s = .next t → t.Inv

/-! The host -/

/-- 30_encoding.md section 7, decision D26: the pseudo-instructions are aliases, with any operands, and `HSV` with defaults has the
command word the section gives, however its operands are written. -/
def Obligations.PseudoInstructionsAreAliases : Prop :=
  (∀ (ys : List Word) (ops : List AsmOperand),
    assemble ys ⟨.rgb, ops⟩ = assemble ys ⟨.packrgb, ops⟩ ∧
    assemble ys ⟨.argb, ops⟩ = assemble ys ⟨.packargb, ops⟩ ∧
    assemble ys ⟨.getcolor, ops⟩ = assemble ys ⟨.ldpx, ops⟩ ∧
    assemble ys ⟨.setcolor, ops⟩ = assemble ys ⟨.stpx, ops⟩) ∧
  (∀ (ys : List Word) (c : AsmOperand) (k : Nat) (name : AsmName),
    (k, name) ∈ [(0, AsmName.unpackb), (1, AsmName.unpackg), (2, AsmName.unpackr), (3, AsmName.unpacka)] →
    assemble ys ⟨.unpack, [c, .int k]⟩ = assemble ys ⟨name, [c]⟩ ∧
    assemble ys ⟨.unpack, [c, .hex (BitVec.ofNat 32 k)]⟩ = assemble ys ⟨name, [c]⟩) ∧
  (∀ (ys : List Word) (ho so vo : AsmOperand) (h s v : Word),
    ho.value ys = some h → so.value ys = some s → vo.value ys = some v →
    (assemble ys ⟨.hsv, [ho, so, vo]⟩).map encode = some (reqBits 0x00000004#32 h s v 0#32) ∧
    (assemble ys ⟨.hsv, [ho, so]⟩).map encode = some (reqBits 0x00000204#32 h s 0#32 0#32) ∧
    (assemble ys ⟨.hsv, [ho, so, .dash]⟩).map encode = some (reqBits 0x00000204#32 h s 0#32 0#32) ∧
    (assemble ys ⟨.hsv, [ho, .dash, vo]⟩).map encode = some (reqBits 0x00000104#32 h 0#32 v 0#32) ∧
    (assemble ys ⟨.hsv, [ho]⟩).map encode = some (reqBits 0x00000304#32 h 0#32 0#32 0#32) ∧
    (assemble ys ⟨.hsv, [ho, .dash, .dash]⟩).map encode = some (reqBits 0x00000304#32 h 0#32 0#32 0#32))

/-- 30_encoding.md sections 2 and 7: whatever is written, an assembled request has 0 in every word it ignores, so its encoding
decodes to the instruction meant. Which lines have an instruction is in part the model's choice (log entry 17), and that 0 in an
ignored word is what makes an `HSV` well-formed is too (log entry 15). -/
def Obligations.AssembledRequestsDecode : Prop :=
  ∀ (ys : List Word) (line : AsmLine) (i : Instr), assemble ys line = some i →
    i.wf = true ∧ decode (encode i) = .ok i

/-- 41_color_math.md section 5 (what rule R97 derives): the host's `GRAD` and `STPX` for every index fill a store of length
`n = max(2, steps)` with the gradient: afterwards `LDPX i` answers the colour that `GRAD i` answers, as far as the layout keeps
it. The bytes past the pixels, the size and the configuration are as before. The colours rest on the spec's decisions D15, D16 and
D27 (log entry 14); where the requests wait is log entry 1. -/
def Obligations.GradientFillsTheBuffer : Prop :=
  ∀ (start stop steps : Word) (n : Nat) (s : State) (st : Store),
    s.px = some st → st.wf → (n : Int) = max 2 steps.toInt → st.size / s.layout.stride = n →
    ∃ t, runListing (gradientListing start stop steps n) [] s = some (.next t) ∧
      t.layout = s.layout ∧ t.storeOwned = s.storeOwned ∧ t.inputs = s.inputs ∧
      t.px.map (·.size) = some st.size ∧
      (∀ k, n * s.layout.stride ≤ k → t.byteAt k = s.byteAt k) ∧
      ∀ index : Word, 0 ≤ index.toInt → index.toInt < n →
        ∃ y, AnswersWith (.grad start stop steps index) t y false ∧
          AnswersWith (.ldpx index) t (match s.layout with | .rgb => y &&& 0x00FFFFFF#32 | .argb => y) false
end

