-- ==== Sys2Proof/Laws/State.lean ====
section
/-! SUPPORT. One lemma per field and update of the state. -/

namespace Sys2Proof.Machine

@[simp] theorem State.respond_px (s : State) (r : Response) : (s.respond r).px = s.px := rfl
@[simp] theorem State.respond_layout (s : State) (r : Response) : (s.respond r).layout = s.layout := rfl
@[simp] theorem State.respond_storeOwned (s : State) (r : Response) : (s.respond r).storeOwned = s.storeOwned := rfl
@[simp] theorem State.respond_inputs (s : State) (r : Response) : (s.respond r).inputs = s.inputs := rfl
@[simp] theorem State.respond_responses (s : State) (r : Response) : (s.respond r).responses = r :: s.responses := rfl

@[simp] theorem State.withStore_px (s : State) (px : Option Store) : (s.withStore px).px = px := rfl
@[simp] theorem State.withStore_layout (s : State) (px : Option Store) : (s.withStore px).layout = s.layout := rfl
@[simp] theorem State.withStore_storeOwned (s : State) (px : Option Store) : (s.withStore px).storeOwned = s.storeOwned := rfl
@[simp] theorem State.withStore_inputs (s : State) (px : Option Store) : (s.withStore px).inputs = s.inputs := rfl
@[simp] theorem State.withStore_responses (s : State) (px : Option Store) : (s.withStore px).responses = s.responses := rfl

/-- Attaching the store that is attached changes nothing. -/
theorem State.withStore_self {s : State} {px : Option Store} (h : s.px = px) : s.withStore px = s := by subst h; rfl

@[simp] theorem State.answer_next (s : State) (px : Option Store) (r : Response) :
    s.answer (.next (px, r)) = .next ((s.withStore px).respond r) := rfl
@[simp] theorem State.answer_fault (s : State) (f : Fault) : s.answer (.fault f) = .fault f := rfl
@[simp] theorem State.answer_refused (s : State) (r : Refusal) : s.answer (.refused r) = .refused r := rfl

@[simp] theorem State.allocated_px (layout : Layout) (n : Nat) :
    (State.allocated layout n).px = some ⟨[], n * layout.stride⟩ := rfl
@[simp] theorem State.allocated_layout (layout : Layout) (n : Nat) : (State.allocated layout n).layout = layout := rfl
@[simp] theorem State.allocated_storeOwned (layout : Layout) (n : Nat) : (State.allocated layout n).storeOwned = true := rfl
@[simp] theorem State.allocated_inputs (layout : Layout) (n : Nat) : (State.allocated layout n).inputs = [] := rfl
@[simp] theorem State.allocated_responses (layout : Layout) (n : Nat) : (State.allocated layout n).responses = [] := rfl

@[simp] theorem Response.done_y (y : Word) : (Response.done y).y = y := rfl
@[simp] theorem Response.done_oob (y : Word) : (Response.done y).oob = false := rfl
@[simp] theorem Response.done_ill (y : Word) : (Response.done y).ill = false := rfl
@[simp] theorem Response.outOfRange_y (y : Word) : (Response.outOfRange y).y = y := rfl
@[simp] theorem Response.outOfRange_oob (y : Word) : (Response.outOfRange y).oob = true := rfl
@[simp] theorem Response.outOfRange_ill (y : Word) : (Response.outOfRange y).ill = false := rfl
@[simp] theorem Response.reserved_y : Response.reserved.y = 0#32 := rfl
@[simp] theorem Response.reserved_oob : Response.reserved.oob = false := rfl
@[simp] theorem Response.reserved_ill : Response.reserved.ill = true := rfl

theorem Layout.stride_pos (l : Layout) : 0 < l.stride := by cases l <;> decide

end Sys2Proof.Machine
end

