-- ==== Sys2Proof/Laws/Operands.lean ====
section
/-! SUPPORT. What the operand forms give: ranges, and the plain arithmetic behind each. -/

namespace Sys2Proof.Machine

theorem mask8_lt (x : Int) : mask8 x < 256 := by unfold mask8; omega

@[simp] theorem mask8_natCast (n : Nat) : mask8 (n : Int) = n % 256 := by unfold mask8; omega

theorem low8_eq (w : Word) : low8 w = w.toNat % 256 := by simp [low8, uint]

theorem low8_lt (w : Word) : low8 w < 256 := mask8_lt _

theorem clamp255_le (x : Int) : clamp255 x ≤ 255 := by unfold clamp255; omega

theorem clamp255_of_nonpos {x : Int} (h : x ≤ 0) : clamp255 x = 0 := by unfold clamp255; omega

theorem clamp255_of_ge {x : Int} (h : 255 ≤ x) : clamp255 x = 255 := by unfold clamp255; omega

theorem clamp255_of_mem {x : Int} (h0 : 0 ≤ x) (h : x ≤ 255) : clamp255 x = x.toNat := by unfold clamp255; omega

theorem clampOperand_le (w : Word) : clampOperand w ≤ 255 := clamp255_le _

theorem stepsOperand_ge (w : Word) : 2 ≤ stepsOperand w := by unfold stepsOperand; omega

theorem sint_lt (w : Word) : sint w < 2147483648 := by
  have := BitVec.two_mul_toInt_lt (x := w); unfold sint; omega

theorem sint_ge (w : Word) : -2147483648 ≤ sint w := by
  have := BitVec.le_two_mul_toInt (x := w); unfold sint; omega

theorem stepsOperand_lt (w : Word) : stepsOperand w < 2147483648 := by
  have := sint_lt w; unfold stepsOperand; omega

theorem defaultedOperand_le (b : Bool) (w : Word) : defaultedOperand b w ≤ 255 := by
  have := low8_lt w; unfold defaultedOperand; split <;> omega

/-- The wrap of rule R91 is the floored modulus 255. -/
theorem wrapHue_eq_emod (hue : Int) : wrapHue hue = (hue % 255).toNat := by
  unfold wrapHue rem
  rw [Int.tmod_eq_emod]
  simp only
  split <;> split <;> omega

theorem wrapHue_lt (hue : Int) : wrapHue hue < 255 := by rw [wrapHue_eq_emod]; omega

@[simp] theorem inRange_iff (i n : Int) : inRange i n = true ↔ 0 ≤ i ∧ i < n := by simp [inRange]

theorem sentinel_eq : sentinel = 0xFFFFFFFF#32 := by decide

theorem word_natCast (n : Nat) : word (n : Int) = BitVec.ofNat 32 n := by simp [word]

end Sys2Proof.Machine
end

