-- ==== Sys2Proof/Laws/Channel.lean ====
section
/-! SUPPORT. Packing and unpacking as sums and bit fields, and their round trips. -/

namespace Sys2Proof.Machine

theorem ch_eq (c : Word) (k : Nat) : ch c k = c.toNat / 256 ^ k % 256 := by
  unfold ch uint
  rw [mask8_natCast, Nat.shiftRight_eq_div_pow, Nat.pow_mul]

theorem ch_lt (c : Word) (k : Nat) : ch c k < 256 := mask8_lt _

theorem rgb_eq_sum (r g b : Int) : rgb r g b = mask8 r * 65536 + mask8 g * 256 + mask8 b := by
  have hg := mask8_lt g
  have hb := mask8_lt b
  have h8 : mask8 b < 2 ^ 8 := hb
  have h16 : mask8 g <<< 8 + mask8 b < 2 ^ 16 := by rw [Nat.shiftLeft_eq]; omega
  unfold rgb
  rw [Nat.or_assoc, ← Nat.shiftLeft_add_eq_or_of_lt h8, ← Nat.shiftLeft_add_eq_or_of_lt h16]
  simp only [Nat.shiftLeft_eq]
  omega

theorem argb_eq_sum (a r g b : Int) :
    argb a r g b = mask8 a * 16777216 + mask8 r * 65536 + mask8 g * 256 + mask8 b := by
  have hr := mask8_lt r
  have h : rgb r g b < 2 ^ 24 := by
    rw [rgb_eq_sum]; have := mask8_lt g; have := mask8_lt b; omega
  have : argb a r g b = mask8 a <<< 24 ||| rgb r g b := by unfold argb rgb; simp only [Nat.or_assoc]
  rw [this, ← Nat.shiftLeft_add_eq_or_of_lt h, rgb_eq_sum, Nat.shiftLeft_eq]
  omega

theorem rgb_lt (r g b : Int) : rgb r g b < 16777216 := by
  rw [rgb_eq_sum]; have := mask8_lt r; have := mask8_lt g; have := mask8_lt b; omega

theorem argb_lt (a r g b : Int) : argb a r g b < 4294967296 := by
  rw [argb_eq_sum]; have := mask8_lt a; have := mask8_lt r; have := mask8_lt g; have := mask8_lt b; omega

theorem toNat_word_of_lt {n : Nat} (h : n < 4294967296) : (word (n : Int)).toNat = n := by
  rw [word_natCast, BitVec.toNat_ofNat]; exact Nat.mod_eq_of_lt h

theorem toNat_word_rgb (r g b : Int) : (word (rgb r g b : Nat)).toNat = rgb r g b :=
  toNat_word_of_lt (by have := rgb_lt r g b; omega)

theorem toNat_word_argb (a r g b : Int) : (word (argb a r g b : Nat)).toNat = argb a r g b :=
  toNat_word_of_lt (argb_lt a r g b)

/-- A word is the sum of its channels. -/
theorem toNat_eq_channels (c : Word) :
    c.toNat = ch c 3 * 16777216 + ch c 2 * 65536 + ch c 1 * 256 + ch c 0 := by
  have := c.isLt
  simp only [ch_eq]
  omega

/-- Two words with the same channels are one word. -/
theorem word_ext_channels {c d : Word} (h0 : ch c 0 = ch d 0) (h1 : ch c 1 = ch d 1) (h2 : ch c 2 = ch d 2)
    (h3 : ch c 3 = ch d 3) : c = d := by
  apply BitVec.eq_of_toNat_eq
  rw [toNat_eq_channels c, toNat_eq_channels d, h0, h1, h2, h3]

@[simp] theorem ch_word_rgb_0 (r g b : Int) : ch (word (rgb r g b : Nat)) 0 = mask8 b := by
  rw [ch_eq, toNat_word_rgb, rgb_eq_sum]
  have := mask8_lt r; have := mask8_lt g; have := mask8_lt b; omega

@[simp] theorem ch_word_rgb_1 (r g b : Int) : ch (word (rgb r g b : Nat)) 1 = mask8 g := by
  rw [ch_eq, toNat_word_rgb, rgb_eq_sum]
  have := mask8_lt r; have := mask8_lt g; have := mask8_lt b; omega

@[simp] theorem ch_word_rgb_2 (r g b : Int) : ch (word (rgb r g b : Nat)) 2 = mask8 r := by
  rw [ch_eq, toNat_word_rgb, rgb_eq_sum]
  have := mask8_lt r; have := mask8_lt g; have := mask8_lt b; omega

@[simp] theorem ch_word_rgb_3 (r g b : Int) : ch (word (rgb r g b : Nat)) 3 = 0 := by
  rw [ch_eq, toNat_word_rgb, rgb_eq_sum]
  have := mask8_lt r; have := mask8_lt g; have := mask8_lt b; omega

@[simp] theorem ch_word_argb_0 (a r g b : Int) : ch (word (argb a r g b : Nat)) 0 = mask8 b := by
  rw [ch_eq, toNat_word_argb, argb_eq_sum]
  have := mask8_lt a; have := mask8_lt r; have := mask8_lt g; have := mask8_lt b; omega

@[simp] theorem ch_word_argb_1 (a r g b : Int) : ch (word (argb a r g b : Nat)) 1 = mask8 g := by
  rw [ch_eq, toNat_word_argb, argb_eq_sum]
  have := mask8_lt a; have := mask8_lt r; have := mask8_lt g; have := mask8_lt b; omega

@[simp] theorem ch_word_argb_2 (a r g b : Int) : ch (word (argb a r g b : Nat)) 2 = mask8 r := by
  rw [ch_eq, toNat_word_argb, argb_eq_sum]
  have := mask8_lt a; have := mask8_lt r; have := mask8_lt g; have := mask8_lt b; omega

@[simp] theorem ch_word_argb_3 (a r g b : Int) : ch (word (argb a r g b : Nat)) 3 = mask8 a := by
  rw [ch_eq, toNat_word_argb, argb_eq_sum]
  have := mask8_lt a; have := mask8_lt r; have := mask8_lt g; have := mask8_lt b; omega

/-- A blend never returns 255 (rule R94). -/
theorem blendch_le (a b al : Nat) (ha : a ≤ 255) (hb : b ≤ 255) (hal : al ≤ 255) : blendch a b al ≤ 254 := by
  have h1 : a * (255 - al) ≤ 255 * (255 - al) := Nat.mul_le_mul_right _ ha
  have h2 : b * al ≤ 255 * al := Nat.mul_le_mul_right _ hb
  unfold blendch
  rw [Nat.shiftRight_eq_div_pow]
  omega

end Sys2Proof.Machine
end

