-- ==== Sys2Proof/Laws/Decode.lean ====
section
/-! SUPPORT. The request format: its five words and its 160-bit value are the same data; the rows of the opcode map are
disjoint (30_encoding.md rule R63). -/

namespace Sys2Proof

theorem Request.ofBits_toBits (q : Request) : Request.ofBits q.toBits = q := by
  obtain ⟨cmd, a, b, c, d⟩ := q
  simp only [Request.ofBits, Request.toBits, Request.mk.injEq]
  refine ⟨?_, ?_, ?_, ?_, ?_⟩ <;>
    (ext k hk; simp only [BitVec.getElem_extractLsb', BitVec.getLsbD_append]; grind)

/-- "The rows are disjoint": two rows disagree on a bit that both masks keep, so no command word selects both (rule R63). -/
theorem opRows_disjoint :
    opRows.Pairwise (fun x y => x.pattern &&& (x.mask &&& y.mask) ≠ y.pattern &&& (x.mask &&& y.mask)) := by decide

end Sys2Proof
end

