-- ==== Sys2Proof/Laws/Memory.lean ====
section
/-! SUPPORT. The laws of memory: read after write, and that every operation keeps the canonical form. -/

namespace Sys2Proof.Machine

/-- No entry at or below `k` is listed. -/
theorem Memory.read_of_all_gt {m : Memory} {k : Nat} (h : ∀ x ∈ m, k < x.1) : m.read k = 0#8 := by
  induction m with
  | nil => rfl
  | cons x m ih =>
    obtain ⟨a, v⟩ := x
    have hk : k < a := h (a, v) (by simp)
    simp only [Memory.read, if_neg (by omega : ¬ k = a)]
    exact ih (fun y hy => h y (by simp [hy]))

theorem Memory.wf_tail {x : Host.Cell} {m : Memory} (h : Memory.wf (x :: m)) : m.wf :=
  ⟨h.1.of_cons, fun y hy => h.2 y (by simp [hy])⟩

/-- Reading after a write of one byte. -/
theorem Memory.read_write {m : Memory} (h : m.wf) (addr k : Nat) (b : Byte) :
    (m.write addr b).read k = if k = addr then b else m.read k := by
  induction m with
  | nil =>
    simp only [Memory.write]
    split
    · simp_all [Memory.read]
    · simp [Memory.read]
  | cons x m ih =>
    obtain ⟨a, v⟩ := x
    have hgt : ∀ y ∈ m, a < y.1 := by
      have := h.1; rw [List.pairwise_cons] at this; exact this.1
    have hm := Memory.wf_tail h
    simp only [Memory.write]
    split
    · rename_i hlt
      split
      · rename_i hb
        by_cases hk : k = addr
        · subst hk
          rw [if_pos rfl, hb]
          apply Memory.read_of_all_gt
          intro y hy
          rcases List.mem_cons.1 hy with rfl | hy
          · exact hlt
          · have := hgt y hy; omega
        · rw [if_neg hk]
      · simp only [Memory.read]
    · split
      · rename_i _ he
        subst he
        split
        · rename_i hb
          by_cases hk : k = addr
          · subst hk
            rw [if_pos rfl, hb]
            exact Memory.read_of_all_gt hgt
          · simp [Memory.read, hk]
        · by_cases hk : k = addr <;> simp [Memory.read, hk]
      · rename_i h1 h2
        simp only [Memory.read]
        by_cases hk : k = a
        · subst hk
          simp [Ne.symm h2]
        · simp only [if_neg hk, ih hm]

theorem Memory.mem_write {m : Memory} {addr : Nat} {b : Byte} {x : Host.Cell} (h : x ∈ m.write addr b) :
    x ∈ m ∨ (x = (addr, b) ∧ b ≠ 0#8) := by
  induction m with
  | nil =>
    simp only [Memory.write] at h
    split at h
    · simp at h
    · right; simp at h; exact ⟨h, ‹_›⟩
  | cons y m ih =>
    obtain ⟨a, v⟩ := y
    simp only [Memory.write] at h
    split at h
    · split at h
      · exact .inl h
      · rcases List.mem_cons.1 h with rfl | h
        · exact .inr ⟨rfl, ‹_›⟩
        · exact .inl h
    · split at h
      · split at h
        · exact .inl (by simp [h])
        · rcases List.mem_cons.1 h with rfl | h
          · exact .inr ⟨rfl, ‹_›⟩
          · exact .inl (by simp [h])
      · rcases List.mem_cons.1 h with rfl | h
        · exact .inl (by simp)
        · rcases ih h with h | h
          · exact .inl (by simp [h])
          · exact .inr h

/-- A write keeps the canonical form. -/
theorem Memory.write_wf {m : Memory} (h : m.wf) (addr : Nat) (b : Byte) : (m.write addr b).wf := by
  refine ⟨?_, fun x hx => ?_⟩
  · induction m with
    | nil => simp only [Memory.write]; split <;> simp
    | cons y m ih =>
      obtain ⟨a, v⟩ := y
      have hp := h.1
      have hm := Memory.wf_tail h
      rw [List.pairwise_cons] at hp
      simp only [Memory.write]
      split
      · split
        · exact h.1
        · refine List.pairwise_cons.2 ⟨fun z hz => ?_, h.1⟩
          rcases List.mem_cons.1 hz with rfl | hz
          · assumption
          · have := hp.1 z hz; simp only at this ⊢; omega
      · split
        · rename_i _ he
          subst he
          split
          · exact hp.2
          · exact List.pairwise_cons.2 ⟨hp.1, hp.2⟩
        · refine List.pairwise_cons.2 ⟨fun z hz => ?_, ih hm⟩
          rcases Memory.mem_write hz with hz | ⟨rfl, _⟩
          · exact hp.1 z hz
          · simp only; omega
  · rcases Memory.mem_write hx with hx | ⟨rfl, hb⟩
    · exact h.2 x hx
    · exact hb

theorem Memory.writeBytes_wf (bs : List Byte) {m : Memory} (h : m.wf) (addr : Nat) : (m.writeBytes addr bs).wf := by
  induction bs generalizing m addr with
  | nil => exact h
  | cons b bs ih => exact ih (Memory.write_wf h addr b) (addr + 1)

/-- Reading after a write of consecutive bytes. -/
theorem Memory.read_writeBytes (bs : List Byte) {m : Memory} (h : m.wf) (addr k : Nat) :
    (m.writeBytes addr bs).read k =
      if addr ≤ k ∧ k < addr + bs.length then bs.getD (k - addr) 0#8 else m.read k := by
  induction bs generalizing m addr with
  | nil =>
    simp only [Memory.writeBytes, List.length_nil]
    rw [if_neg (by omega)]
  | cons b bs ih =>
    simp only [Memory.writeBytes, List.length_cons]
    rw [ih (Memory.write_wf h addr b), Memory.read_write h]
    by_cases h1 : k = addr
    · subst h1
      rw [if_neg (by omega), if_pos rfl, if_pos (by omega)]
      simp
    · by_cases h2 : addr ≤ k ∧ k < addr + (bs.length + 1)
      · rw [if_pos (by omega), if_pos h2]
        obtain ⟨j, hj⟩ : ∃ j, k - addr = j + 1 := ⟨k - addr - 1, by omega⟩
        rw [hj, show k - (addr + 1) = j by omega]
        simp
      · rw [if_neg (by omega), if_neg h1, if_neg h2]

theorem Memory.mem_writeBytes {bs : List Byte} {m : Memory} {addr : Nat} {x : Host.Cell}
    (h : x ∈ m.writeBytes addr bs) : x ∈ m ∨ (addr ≤ x.1 ∧ x.1 < addr + bs.length) := by
  induction bs generalizing m addr with
  | nil => exact .inl h
  | cons b bs ih =>
    simp only [Memory.writeBytes] at h
    rcases ih h with h | h
    · rcases Memory.mem_write h with h | ⟨rfl, _⟩
      · exact .inl h
      · right; simp
    · right; simp only [List.length_cons]; omega

/-- Bytes just written read back. -/
theorem Memory.map_read_writeBytes (bs : List Byte) {m : Memory} (h : m.wf) (addr : Nat) :
    (List.range bs.length).map (fun k => (m.writeBytes addr bs).read (addr + k)) = bs := by
  apply List.ext_getElem (by simp)
  intro k h1 h2
  simp [Memory.read_writeBytes bs h, h2, List.getD_eq_getElem?_getD]

theorem Memory.nil_wf : Memory.wf [] := by simp [Memory.wf]

end Sys2Proof.Machine
end

