-- ==== Sys2Proof/Laws/PerInstr.lean ====
section
/-! SUPPORT. Per instruction: the command word the encoder writes selects the instruction's own row of the opcode map
(30_encoding.md rule R63). -/

namespace Sys2Proof.Laws.RowSelected

/-- The encoder's command word selects the instruction's own row (rule R63). -/
def Statement (i : Instr) : Prop := selectedOp i.request.cmd = some i.op

theorem packrgb (r g b : Word) : Statement (.packrgb r g b) := by
  simp only [Statement, Instr.request, Instr.op]; decide
theorem packargb (a r g b : Word) : Statement (.packargb a r g b) := by
  simp only [Statement, Instr.request, Instr.op]; decide
theorem unpackb (c : Word) : Statement (.unpackb c) := by
  simp only [Statement, Instr.request, Instr.op]; decide
theorem unpackg (c : Word) : Statement (.unpackg c) := by
  simp only [Statement, Instr.request, Instr.op]; decide
theorem unpackr (c : Word) : Statement (.unpackr c) := by
  simp only [Statement, Instr.request, Instr.op]; decide
theorem unpacka (c : Word) : Statement (.unpacka c) := by
  simp only [Statement, Instr.request, Instr.op]; decide
theorem hsv (sd vd : Bool) (hue sat val : Word) : Statement (.hsv sd vd hue sat val) := by
  cases sd <;> cases vd <;> (simp only [Statement, Instr.request, Instr.op]; decide)
theorem fade (c brightness : Word) : Statement (.fade c brightness) := by
  simp only [Statement, Instr.request, Instr.op]; decide
theorem blend (ca alpha cb : Word) : Statement (.blend ca alpha cb) := by
  simp only [Statement, Instr.request, Instr.op]; decide
theorem grad (start stop steps index : Word) : Statement (.grad start stop steps index) := by
  simp only [Statement, Instr.request, Instr.op]; decide
theorem ldpx (index : Word) : Statement (.ldpx index) := by
  simp only [Statement, Instr.request, Instr.op]; decide
theorem stpx (index c : Word) : Statement (.stpx index c) := by
  simp only [Statement, Instr.request, Instr.op]; decide

end Sys2Proof.Laws.RowSelected
end

