-- ==== Sys2Proof/Laws/Store.lean ====
section
/-! SUPPORT. The store port: when it answers, what it answers, and that it keeps the store as the spec allows it. -/

namespace Sys2Proof.Machine

/-- What `MemWrite` does when it is defined (rule R51): the bytes given, nothing else, and not the size. -/
theorem Store.memWrite_some {st st' : Store} {addr : Nat} {bs : List Byte} (h : st.memWrite addr bs = some st') :
    addr + bs.length ≤ st.size ∧ st' = { st with bytes := st.bytes.writeBytes addr bs } := by
  unfold Store.memWrite Store.storeSize at h
  split at h
  · exact ⟨‹_›, (Option.some.inj h).symm⟩
  · cases h

theorem Store.memWrite_size {st st' : Store} {addr : Nat} {bs : List Byte} (h : st.memWrite addr bs = some st') :
    st'.size = st.size := by rw [(Store.memWrite_some h).2]

theorem Store.memWrite_wf {st st' : Store} {addr : Nat} {bs : List Byte} (h : st.memWrite addr bs = some st')
    (hw : st.wf) : st'.wf := by
  obtain ⟨hle, rfl⟩ := Store.memWrite_some h
  refine ⟨Memory.writeBytes_wf bs hw.1 addr, fun x hx => ?_, hw.2.2⟩
  rcases Memory.mem_writeBytes hx with hx | hx
  · exact hw.2.1 x hx
  · simp only; omega

/-- The byte at an address after `MemWrite` (rule R51). -/
theorem Store.byteAt_memWrite {st st' : Store} {addr : Nat} {bs : List Byte} (h : st.memWrite addr bs = some st')
    (hw : st.bytes.wf) (k : Nat) :
    st'.byteAt k = if addr ≤ k ∧ k < addr + bs.length then some (bs.getD (k - addr) 0#8) else st.byteAt k := by
  obtain ⟨hle, rfl⟩ := Store.memWrite_some h
  unfold Store.byteAt
  simp only [Memory.read_writeBytes bs hw]
  by_cases hk : addr ≤ k ∧ k < addr + bs.length
  · rw [if_pos (by omega), if_pos hk, if_pos hk]
  · simp [if_neg hk]

theorem Store.ofContents_wf {contents : List Byte} (h : contents.length ≤ Config.maxStoreSize) :
    (Store.ofContents contents).wf := by
  refine ⟨Memory.writeBytes_wf contents Memory.nil_wf 0, fun x hx => ?_, h⟩
  rcases Memory.mem_writeBytes hx with hx | hx
  · cases hx
  · simpa [Store.ofContents] using hx

/-- A store made from bytes holds them. -/
theorem Store.byteAt_ofContents (contents : List Byte) (k : Nat) :
    (Store.ofContents contents).byteAt k = contents[k]? := by
  unfold Store.byteAt Store.ofContents
  simp only [Memory.read_writeBytes contents Memory.nil_wf]
  by_cases hk : k < contents.length
  · simp [hk, List.getD_eq_getElem?_getD]
  · simp [hk]

/-- An in-range pixel lies inside the store (rule R42), so the store port is always defined for it. -/
theorem Store.pixel_inside {st : Store} {layout : Layout} {i : Nat} (h : i < st.length layout) :
    pixelAddr layout i + layout.stride ≤ st.size := by
  have h1 : (i + 1) * layout.stride ≤ st.length layout * layout.stride := Nat.mul_le_mul_right _ h
  have h2 : st.length layout * layout.stride ≤ st.size := Nat.div_mul_le_self _ _
  unfold pixelAddr
  rw [Nat.add_mul, Nat.one_mul] at h1
  omega

end Sys2Proof.Machine
end

