-- ==== Sys2Proof/Laws/Step.lean ====
section
/-! SUPPORT. What an instruction and a step can do, said once: the inversion lemmas of `exec`, `holderAct` and `construct`, and
the specifications of the two pixel accesses. -/

namespace Sys2Proof.Machine

@[simp] theorem step_idle {s : State} (h : s.inputs = []) : step s = .next s := by
  unfold step; rw [h]

theorem step_request {s : State} {req : BitVec 160} {rest : List Input} (h : s.inputs = .request req :: rest) :
    step s = serve req { s with inputs := rest } := by
  unfold step; rw [h]

theorem step_holder {s : State} {access : HolderAccess} {rest : List Input} (h : s.inputs = .holder access :: rest) :
    step s = holderAct access { s with inputs := rest } := by
  unfold step; rw [h]

theorem step_reset {s : State} {form : ResetForm} {rest : List Input} (h : s.inputs = .reset form :: rest) :
    step s = construct form { s with inputs := rest } := by
  unfold step; rw [h]

theorem serve_ok {req : BitVec 160} {i : Instr} (h : decode req = .ok i) (s : State) : serve req s = exec i s := by
  unfold serve; rw [h]

theorem serve_reserved {req : BitVec 160} {e : Reserved} (h : decode req = .error e) (s : State) :
    serve req s = .next (s.respond .reserved) := by
  unfold serve; rw [h]

/-- `LDPX` of an index in range (rule R110). -/
theorem ldpxReply_inside {layout : Layout} {st : Store} {index : Word}
    (h0 : 0 ≤ sint index) (h1 : sint index < st.length layout) :
    ldpxReply layout (some st) index = .next (some st, pixelRead
      ((List.range layout.stride).map fun k => st.bytes.read (pixelAddr layout (sint index).toNat + k))) := by
  have hin := Store.pixel_inside (st := st) (layout := layout) (i := (sint index).toNat) (by omega)
  have hr : st.memRead (pixelAddr layout (sint index).toNat) layout.stride =
      some ((List.range layout.stride).map fun k => st.bytes.read (pixelAddr layout (sint index).toNat + k)) := by
    unfold Store.memRead Store.storeSize; rw [if_pos hin]
  simp only [ldpxReply, if_pos ((inRange_iff _ _).2 ⟨h0, h1⟩), hr]

/-- `LDPX` of an index out of range (rule R110). -/
theorem ldpxReply_outside {layout : Layout} {st : Store} {index : Word}
    (h : ¬ (0 ≤ sint index ∧ sint index < st.length layout)) :
    ldpxReply layout (some st) index = .next (some st, .outOfRange sentinel) := by
  simp only [ldpxReply, if_neg (by rwa [inRange_iff] : ¬ inRange (sint index) (st.length layout) = true)]

theorem pixelBytes_length (layout : Layout) (c : Word) : (pixelBytes layout c).length = layout.stride := by
  cases layout <;> rfl

/-- `STPX` to an index in range (rule R111). -/
theorem stpxReply_inside {layout : Layout} {st : Store} {index : Word} (c : Word)
    (h0 : 0 ≤ sint index) (h1 : sint index < st.length layout) :
    ∃ st', st.memWrite (pixelAddr layout (sint index).toNat) (pixelBytes layout c) = some st' ∧
      stpxReply layout (some st) index c = .next (some st', .done 0#32) := by
  have hin := Store.pixel_inside (st := st) (layout := layout) (i := (sint index).toNat) (by omega)
  have hr : st.memWrite (pixelAddr layout (sint index).toNat) (pixelBytes layout c) = some
      { st with bytes := st.bytes.writeBytes (pixelAddr layout (sint index).toNat) (pixelBytes layout c) } := by
    unfold Store.memWrite Store.storeSize; rw [pixelBytes_length, if_pos hin]
  exact ⟨_, hr, by simp only [stpxReply, if_pos ((inRange_iff _ _).2 ⟨h0, h1⟩), hr]⟩

/-- `STPX` to an index out of range (rule R111). -/
theorem stpxReply_outside {layout : Layout} {st : Store} {index : Word} (c : Word)
    (h : ¬ (0 ≤ sint index ∧ sint index < st.length layout)) :
    stpxReply layout (some st) index c = .next (some st, .outOfRange 0#32) := by
  simp only [stpxReply, if_neg (by rwa [inRange_iff] : ¬ inRange (sint index) (st.length layout) = true)]

theorem execLdpx_inside {s : State} {st : Store} {index : Word} (hs : s.px = some st)
    (h0 : 0 ≤ sint index) (h1 : sint index < st.length s.layout) :
    execLdpx index s = .next (s.respond (pixelRead
      ((List.range s.layout.stride).map fun k => st.bytes.read (pixelAddr s.layout (sint index).toNat + k)))) := by
  rw [execLdpx, hs, ldpxReply_inside h0 h1, State.answer_next, State.withStore_self hs]

theorem execLdpx_outside {s : State} {st : Store} {index : Word} (hs : s.px = some st)
    (h : ¬ (0 ≤ sint index ∧ sint index < st.length s.layout)) :
    execLdpx index s = .next (s.respond (.outOfRange sentinel)) := by
  rw [execLdpx, hs, ldpxReply_outside h, State.answer_next, State.withStore_self hs]

theorem execStpx_inside {s : State} {st : Store} {index : Word} (c : Word) (hs : s.px = some st)
    (h0 : 0 ≤ sint index) (h1 : sint index < st.length s.layout) :
    ∃ st', st.memWrite (pixelAddr s.layout (sint index).toNat) (pixelBytes s.layout c) = some st' ∧
      execStpx index c s = .next ((s.withStore (some st')).respond (.done 0#32)) := by
  obtain ⟨st', hw, he⟩ := stpxReply_inside c h0 h1
  exact ⟨st', hw, by rw [execStpx, hs, he, State.answer_next]⟩

theorem execStpx_outside {s : State} {st : Store} {index : Word} (c : Word) (hs : s.px = some st)
    (h : ¬ (0 ≤ sint index ∧ sint index < st.length s.layout)) :
    execStpx index c s = .next (s.respond (.outOfRange 0#32)) := by
  rw [execStpx, hs, stpxReply_outside c h, State.answer_next, State.withStore_self hs]

/-- A pixel access without a store (log entry 10). -/
theorem execLdpx_none {s : State} (index : Word) (hs : s.px = none) : execLdpx index s = .fault .storeAbsent := by
  rw [execLdpx, hs]; rfl

theorem execStpx_none {s : State} (index c : Word) (hs : s.px = none) : execStpx index c s = .fault .storeAbsent := by
  rw [execStpx, hs]; rfl

theorem gradSample_legal (start stop : Word) (n i : Int) :
    (gradSample start stop n i).ill = false := by
  unfold gradSample
  split
  · split
    · rfl
    · split <;> rfl
  · rfl

/-- Everything an instruction that answers a next state can do: give one legal response, and, for an in-range `STPX`, write the
pixel's bytes through the store port. -/
theorem exec_next_cases {i : Instr} {s t : State} (h : exec i s = .next t) :
    (∃ r : Response, r.ill = false ∧ t = s.respond r) ∨
    (∃ index c st st', i = .stpx index c ∧ s.px = some st ∧ 0 ≤ sint index ∧ sint index < st.length s.layout ∧
      st.memWrite (pixelAddr s.layout (sint index).toNat) (pixelBytes s.layout c) = some st' ∧
      t = (s.withStore (some st')).respond (.done 0#32)) := by
  cases i with
  | packrgb r g b => exact .inl ⟨_, rfl, (Host.Outcome.next.inj h).symm⟩
  | packargb a r g b => exact .inl ⟨_, rfl, (Host.Outcome.next.inj h).symm⟩
  | unpackb c => exact .inl ⟨_, rfl, (Host.Outcome.next.inj h).symm⟩
  | unpackg c => exact .inl ⟨_, rfl, (Host.Outcome.next.inj h).symm⟩
  | unpackr c => exact .inl ⟨_, rfl, (Host.Outcome.next.inj h).symm⟩
  | unpacka c => exact .inl ⟨_, rfl, (Host.Outcome.next.inj h).symm⟩
  | hsv sd vd hue sat val => exact .inl ⟨_, rfl, (Host.Outcome.next.inj h).symm⟩
  | fade c br => exact .inl ⟨_, rfl, (Host.Outcome.next.inj h).symm⟩
  | blend ca al cb => exact .inl ⟨_, rfl, (Host.Outcome.next.inj h).symm⟩
  | grad start stop n i => exact .inl ⟨_, gradSample_legal _ _ _ _, (Host.Outcome.next.inj h).symm⟩
  | ldpx index =>
    replace h : execLdpx index s = .next t := h
    cases hs : s.px with
    | none => rw [execLdpx_none index hs] at h; cases h
    | some st =>
      by_cases hr : 0 ≤ sint index ∧ sint index < st.length s.layout
      · rw [execLdpx_inside hs hr.1 hr.2] at h
        exact .inl ⟨_, rfl, (Host.Outcome.next.inj h).symm⟩
      · rw [execLdpx_outside hs hr] at h
        exact .inl ⟨_, rfl, (Host.Outcome.next.inj h).symm⟩
  | stpx index c =>
    replace h : execStpx index c s = .next t := h
    cases hs : s.px with
    | none => rw [execStpx_none index c hs] at h; cases h
    | some st =>
      by_cases hr : 0 ≤ sint index ∧ sint index < st.length s.layout
      · obtain ⟨st', hw, he⟩ := execStpx_inside c hs hr.1 hr.2
        rw [he] at h
        exact .inr ⟨index, c, st, st', rfl, rfl, hr.1, hr.2, hw, (Host.Outcome.next.inj h).symm⟩
      · rw [execStpx_outside c hs hr] at h
        exact .inl ⟨_, rfl, (Host.Outcome.next.inj h).symm⟩

/-- Everything an external-holder input that answers a next state can do (rule R46). -/
theorem holderAct_next_cases {access : HolderAccess} {s t : State} (h : holderAct access s = .next t) :
    t = s ∨ (s.storeOwned = false ∧ ∃ st, s.px = some st ∧
      ((∃ addr value st', access = .writeByte addr value ∧ st.memWrite addr [value] = some st' ∧
          t = s.withStore (some st')) ∨
       (∃ contents, access = .rewrite contents ∧ contents.length ≤ Config.maxStoreSize ∧
          t = s.withStore (some (Store.ofContents contents))) ∨
       (access = .free ∧ t = s.withStore none))) := by
  unfold holderAct at h
  split at h
  · exact .inl (Host.Outcome.next.inj h).symm
  · rename_i ho
    have ho : s.storeOwned = false := by simpa using ho
    split at h
    · cases h
    · rename_i st hs
      cases access with
      | readByte addr =>
        simp only at h
        split at h
        · exact .inl (Host.Outcome.next.inj h).symm
        · cases h
      | writeByte addr value =>
        simp only at h
        split at h
        · rename_i st' hw
          exact .inr ⟨ho, st, hs, .inl ⟨addr, value, st', rfl, hw, (Host.Outcome.next.inj h).symm⟩⟩
        · cases h
      | rewrite contents =>
        simp only at h
        split at h
        · exact .inr ⟨ho, st, hs, .inr (.inl ⟨contents, rfl, ‹_›, (Host.Outcome.next.inj h).symm⟩)⟩
        · cases h
      | free => exact .inr ⟨ho, st, hs, .inr (.inr ⟨rfl, (Host.Outcome.next.inj h).symm⟩)⟩

/-- Everything a reset that answers a next state can do (rule R141). -/
theorem construct_next_cases {form : ResetForm} {s t : State} (h : construct form s = .next t) :
    (∃ layout n, form = .allocate layout n ∧ n * layout.stride ≤ Config.maxStoreSize ∧
      t = { State.allocated layout n with inputs := s.inputs, responses := s.responses }) ∨
    (∃ layout contents, form = .wrap layout contents ∧ contents.length ≤ Config.maxStoreSize ∧
      t = { s with px := some (Store.ofContents contents), layout := layout, storeOwned := false }) := by
  unfold construct at h
  cases form with
  | allocate layout n =>
    simp only at h
    split at h
    · exact .inl ⟨layout, n, rfl, ‹_›, (Host.Outcome.next.inj h).symm⟩
    · cases h
  | wrap layout contents =>
    simp only at h
    split at h
    · exact .inr ⟨layout, contents, rfl, ‹_›, (Host.Outcome.next.inj h).symm⟩
    · cases h

end Sys2Proof.Machine
end

