-- ==== Sys2Proof/Tests/Slice0.lean ====
section
/-! SUPPORT. The model's own tests. Expected values come from the spec's vectors (95_test_vectors.md, the section named at each
group) or are worked out by hand from the rule named. Every test is one operation or one step on a small state. -/

namespace Sys2Proof.Tests

open Sys2Proof Sys2Proof.Machine

/-! Helpers -/

/-- An aliased store with these bytes, no input waiting. -/
def wrapped (layout : Layout) (bytes : List Byte) : State where
  px := some (Store.ofContents bytes)
  layout := layout
  storeOwned := false
  inputs := []
  responses := []

/-- Two RGB pixels and one trailing byte (95_test_vectors.md section 7.1). -/
def rgbState : State := wrapped .rgb [0x12#8, 0x34#8, 0x56#8, 0xAB#8, 0xCD#8, 0xEF#8, 0x77#8]

/-- Two ARGB pixels (95_test_vectors.md section 7.1). -/
def argbState : State := wrapped .argb [0x80#8, 0x12#8, 0x34#8, 0x56#8, 0xFF#8, 0xFF#8, 0xFF#8, 0xFF#8]

/-- No store is attached any more. -/
def freedState : State := { rgbState with px := none }

def rgbStore : Store := Store.ofContents [0x12#8, 0x34#8, 0x56#8, 0xAB#8, 0xCD#8, 0xEF#8, 0x77#8]

def argbStore : Store := Store.ofContents [0x80#8, 0x12#8, 0x34#8, 0x56#8, 0xFF#8, 0xFF#8, 0xFF#8, 0xFF#8]

/-- The next state, if there is one. -/
def nextOf : Host.Outcome State Fault Refusal → Option State
  | .next t => some t
  | .fault _ => none
  | .refused _ => none

/-- The newest response: `Y`, `OOB`, `ILL`. -/
def answer (o : Host.Outcome State Fault Refusal) : Option (Word × Bool × Bool) :=
  (nextOf o).bind fun t => t.responses.head?.map fun r => (r.y, r.oob, r.ill)

/-- The bytes of the store, from address 0 up. -/
def bytesOf (s : State) : Option (List Byte) := s.px.map fun st => (List.range st.size).map st.bytes.read

def bytesAfter (o : Host.Outcome State Fault Refusal) : Option (List Byte) := (nextOf o).bind bytesOf

/-- What the decoder reads. -/
def decoded (req : BitVec 160) : Option Instr :=
  match decode req with
  | .ok i => some i
  | .error _ => none

/-- Why the decoder refuses. -/
def rejected (req : BitVec 160) : Option Reserved :=
  match decode req with
  | .ok _ => none
  | .error e => some e

/-- The state with one request waiting. -/
def asking (s : State) (req : BitVec 160) : State := { s with inputs := [.request req] }

/-! WellFormed: an ignored word of HSV must be 0 (30_encoding.md rule R68) -/

theorem test_wf_refuses_junk_sat : (Instr.hsv true false 0#32 1#32 0#32).wf = false := by decide
theorem test_wf_refuses_junk_val : (Instr.hsv false true 0#32 0#32 1#32).wf = false := by decide
theorem test_wf_accepts_used_words : (Instr.hsv false false 1#32 2#32 3#32).wf = true := by decide

/-! Decoding: the words of 95_test_vectors.md section 8.3, written out as one 160-bit value, `D C B A CMD` -/

theorem test_decode_packrgb :
    decoded 0x00000000_00000056_00000034_00000012_00000001#160 = some (.packrgb 0x12#32 0x34#32 0x56#32) := by decide
theorem test_decode_packargb :
    decoded 0x00000056_00000034_00000012_00000080_00000002#160 =
      some (.packargb 0x80#32 0x12#32 0x34#32 0x56#32) := by decide
theorem test_decode_unpackb :
    decoded 0x00000000_00000000_00000000_80123456_00000003#160 = some (.unpackb 0x80123456#32) := by decide
theorem test_decode_unpackg :
    decoded 0x00000000_00000000_00000000_80123456_00000103#160 = some (.unpackg 0x80123456#32) := by decide
theorem test_decode_unpackr :
    decoded 0x00000000_00000000_00000000_80123456_00000203#160 = some (.unpackr 0x80123456#32) := by decide
theorem test_decode_unpacka :
    decoded 0x00000000_00000000_00000000_80123456_00000303#160 = some (.unpacka 0x80123456#32) := by decide
theorem test_decode_hsv :
    decoded 0x00000000_00000096_000000C8_00000064_00000004#160 =
      some (.hsv false false 100#32 200#32 150#32) := by decide
theorem test_decode_hsv_sd :
    decoded 0x00000000_00000096_00000000_00000064_00000104#160 = some (.hsv true false 100#32 0#32 150#32) := by decide
theorem test_decode_hsv_vd :
    decoded 0x00000000_00000000_000000C8_00000064_00000204#160 = some (.hsv false true 100#32 200#32 0#32) := by decide
theorem test_decode_hsv_junk_in_ignored_words :
    decoded 0xDEADBEEF_DEADBEEF_DEADBEEF_00000000_00000304#160 = some (.hsv true true 0#32 0#32 0#32) := by decide
theorem test_decode_fade :
    decoded 0x00000000_00000000_00000064_00FF8001_00000005#160 = some (.fade 0x00FF8001#32 100#32) := by decide
theorem test_decode_blend :
    decoded 0x00000000_00F0E0D0_0000004D_00102030_00000006#160 =
      some (.blend 0x00102030#32 77#32 0x00F0E0D0#32) := by decide
theorem test_decode_grad :
    decoded 0x00000003_00000005_000000FF_00FF0000_00000007#160 =
      some (.grad 0x00FF0000#32 0x000000FF#32 5#32 3#32) := by decide
theorem test_decode_ldpx :
    decoded 0x00000000_00000000_00000000_00000001_00000008#160 = some (.ldpx 1#32) := by decide
theorem test_decode_stpx :
    decoded 0x00000000_00000000_00ABCDEF_00000001_00000009#160 = some (.stpx 1#32 0x00ABCDEF#32) := by decide

/-- Bit by bit: `OPC` = 00000101 in bits 7:0, `MOD` = 00 in bits 9:8, bits 31:10 zero; `A` = 3, `B` = 2 (rules R60, R61, R63). -/
theorem test_decode_fade_bit_by_bit :
    decoded (0#64 ++ 0b00000000000000000000000000000010#32 ++ 0b00000000000000000000000000000011#32 ++
      (0b0000000000000000000000#22 ++ 0b00#2 ++ 0b00000101#8)) = some (.fade 3#32 2#32) := by decide

/-- 95_test_vectors.md section 8.1. -/
theorem test_reserved_words :
    rejected 0x0000000A#160 = some .unassignedOpcode ∧ rejected 0x000000FF#160 = some .unassignedOpcode ∧
    rejected 0x00000101#160 = some .modNotZero ∧ rejected 0x00000302#160 = some .modNotZero ∧
    rejected 0x00000107#160 = some .modNotZero ∧ rejected 0x00000108#160 = some .modNotZero ∧
    rejected 0x80000004#160 = some .reservedBitSet ∧ rejected 0x00010003#160 = some .reservedBitSet ∧
    rejected 0x0000030A#160 = some .unassignedOpcode := by decide

/-- The encoder writes the words of section 8.3. -/
theorem test_encode_words :
    encode (.hsv false true 100#32 200#32 0#32) = 0x00000000_00000000_000000C8_00000064_00000204#160 ∧
    encode (.stpx 1#32 0x00ABCDEF#32) = 0x00000000_00000000_00ABCDEF_00000001_00000009#160 := by decide

theorem test_decode_table_word :
    decodeTableWord 32 0x00000303 = some (.unpacka 0#32) ∧ decodeTableWord 32 0x00000400 = none ∧
    decodeTableWord 160 0x00000003_00000005_000000FF_00FF0000_00000007 =
      some (.grad 0x00FF0000#32 0x000000FF#32 5#32 3#32) := by decide

/-! Meanings: 95_test_vectors.md sections 2 to 7 -/

theorem test_packrgb_masks_operands :
    answer (exec (.packrgb 0xFFFFFFFF#32 0xFFFFFFFE#32 0xFFFFFF00#32) rgbState) = some (0x00FFFE00#32, false, false) := by
  decide
theorem test_packargb_operand_order :
    answer (exec (.packargb 0x80#32 0x12#32 0x34#32 0x56#32) rgbState) = some (0x80123456#32, false, false) := by decide
theorem test_packargb_all_ones_is_a_colour :
    answer (exec (.packargb 0x1FF#32 0xFFFFFFFF#32 0xFF#32 0xFFFFFFFF#32) rgbState) =
      some (0xFFFFFFFF#32, false, false) := by decide
theorem test_unpackb : answer (exec (.unpackb 0x80123456#32) rgbState) = some (0x56#32, false, false) := by decide
theorem test_unpackg : answer (exec (.unpackg 0x80123456#32) rgbState) = some (0x34#32, false, false) := by decide
theorem test_unpackr : answer (exec (.unpackr 0x80123456#32) rgbState) = some (0x12#32, false, false) := by decide
theorem test_unpacka_zero_extends :
    answer (exec (.unpacka 0xFF000000#32) rgbState) = some (0xFF#32, false, false) := by decide

theorem test_hsv_worked_in_full :
    answer (exec (.hsv false false 100#32 200#32 150#32) rgbState) = some (0x00208034#32, false, false) := by decide
/-- hue -1000 acts as 20, which 41_color_math.md rule R91 gives as `h` = 15, `upF` = 60, `downF` = 192 at full sat and val. -/
theorem test_hsv_negative_hue :
    answer (exec (.hsv true true 0xFFFFFC18#32 0#32 0#32) rgbState) = some (0x00C03C00#32, false, false) := by decide

theorem test_fade_scales_and_drops_top_byte :
    answer (exec (.fade 0x80402010#32 128#32) rgbState) = some (0x00201008#32, false, false) := by decide
theorem test_fade_above_255_is_unchanged :
    answer (exec (.fade 0x80402010#32 300#32) rgbState) = some (0x80402010#32, false, false) := by decide

theorem test_blend_drops_top_bytes :
    answer (exec (.blend 0xAA102030#32 77#32 0x55F0E0D0#32) rgbState) = some (0x0053595F#32, false, false) := by decide
theorem test_blend_is_no_identity_at_0 :
    answer (exec (.blend 0x00102030#32 0xFFFFFFFF#32 0x00F0E0D0#32) rgbState) =
      some (0x000F1F2F#32, false, false) := by decide

theorem test_grad_interior :
    answer (exec (.grad 0xFF102030#32 0xFFF0E0D0#32 3#32 1#32) rgbState) = some (0x005A5F64#32, false, false) := by decide
/-- `255 * i` passes 2^31 and stays exact (decision D27). -/
theorem test_grad_product_does_not_wrap :
    answer (exec (.grad 0x00FF0000#32 0x000000FF#32 0x7FFFFFFF#32 0x7FFFFFFD#32) rgbState) =
      some (0x000000FD#32, false, false) := by decide

theorem test_ldpx_rgb : answer (exec (.ldpx 1#32) rgbState) = some (0x00ABCDEF#32, false, false) := by decide
theorem test_ldpx_out_of_range_beside_same_word :
    answer (exec (.ldpx 2#32) argbState) = some (0xFFFFFFFF#32, true, false) ∧
    answer (exec (.ldpx 1#32) argbState) = some (0xFFFFFFFF#32, false, false) := by decide

theorem test_stpx_rgb_keeps_trailing_byte :
    bytesAfter (exec (.stpx 0#32 0x80998877#32) rgbState) =
      some [0x99#8, 0x88#8, 0x77#8, 0xAB#8, 0xCD#8, 0xEF#8, 0x77#8] := by decide
theorem test_stpx_argb_zero_bytes :
    bytesAfter (exec (.stpx 1#32 0x00123456#32) argbState) =
      some [0x80#8, 0x12#8, 0x34#8, 0x56#8, 0x00#8, 0x12#8, 0x34#8, 0x56#8] := by decide

/-! Steps -/

/-- 95_test_vectors.md section 8.1: `STPX` with `MOD` = 2 is answered `ILL` and writes nothing. -/
theorem test_step_reserved :
    answer (step (asking rgbState 0x00000000_00000000_00ABCDEF_00000000_00000209#160)) = some (0#32, false, true) ∧
    bytesAfter (step (asking rgbState 0x00000000_00000000_00ABCDEF_00000000_00000209#160)) = bytesOf rgbState := by decide

/-- After `withFetchWord` the very next step runs the word, from reset too (section 9.1: `HSV 64`). -/
theorem test_step_runs_the_word_placed :
    answer (step (State.reset.withFetchWord 160 0x00000000_00000000_00000000_00000040_00000304)) =
      some (0x003CC000#32, false, false) := by decide

/-- 95_test_vectors.md section 9.5: the external holder writes byte 4; then replaces the store by a smaller one. -/
theorem test_step_holder_writes :
    bytesAfter (step { wrapped .rgb [0#8, 0#8, 0#8, 0x0A#8, 0x0B#8, 0x0C#8] with
      inputs := [.holder (.writeByte 4 0xEE#8)] }) = some [0#8, 0#8, 0#8, 0x0A#8, 0xEE#8, 0x0C#8] := by decide
theorem test_step_holder_replaces :
    answer (exec (.ldpx 1#32) (wrapped .rgb [0#8, 0#8, 0#8, 0x0A#8, 0xEE#8])) = some (0xFFFFFFFF#32, true, false) := by decide

/-- 10_state.md section 4: `N` = 2 ARGB pixels are 8 zero bytes, owned. -/
theorem test_step_reset_allocates :
    nextOf (step { rgbState with inputs := [.reset (.allocate .argb 2)] }) =
      some { px := some { bytes := [], size := 8 }, layout := .argb, storeOwned := true, inputs := [], responses := [] } := by
  decide

theorem test_layout_input : Layout.ofBit 0#1 = .rgb ∧ Layout.ofBit 1#1 = .argb := by decide

/-- The bits of a response (30_encoding.md section 5): `OOB` is bit 32, `ILL` bit 33. -/
theorem test_response_bits :
    (Response.outOfRange sentinel).toBits = 0x1FFFFFFFF#34 ∧ Response.reserved.toBits = 0x200000000#34 := by decide

/-! The written form (30_encoding.md section 7) -/

theorem test_parse_hsv_default :
    parseLine ['H', 'S', 'V', ' ', '-', '1', ',', ' ', '-', ',', ' ', '0', 'x', '9', '6', ' ', ';', ' ', 'c'] =
      some ⟨.hsv, [.int (-1), .dash, .hex 0x96#32]⟩ := by decide
theorem test_parse_result :
    parseLine ['S', 'T', 'P', 'X', ' ', '3', ',', ' ', 'Y', '[', '1', '2', ']'] = some ⟨.stpx, [.int 3, .result 12]⟩ := by
  decide
theorem test_assemble_copies_a_result :
    assemble [7#32, 0x00CB0032#32] ⟨.setcolor, [.int 1, .result 1]⟩ = some (.stpx 1#32 0x00CB0032#32) := by decide
theorem test_assemble_refuses_missing_operand : assemble [] ⟨.fade, [.hex 1#32]⟩ = none := by decide

/-! Memory keeps its canonical form: writing the value an unlisted address reads as removes the entry -/

theorem test_memory_canonical :
    Memory.write [(1, 5#8), (3, 6#8)] 1 0#8 = [(3, 6#8)] ∧ Memory.write [(1, 5#8)] 0 7#8 = [(0, 7#8), (1, 5#8)] ∧
    Memory.write [(1, 5#8)] 2 0#8 = [(1, 5#8)] := by decide

/-! Witnesses: for every statement with hypotheses, a concrete state and operands that meet them together, each clause of a
statement with several at the boundary values of its range, with what the spec gives there -/

theorem witness_PackRgbPacksLowBytes :
    (255 ≤ 255 ∧ 0 ≤ 255 ∧ 128 ≤ 255) ∧
    ch (word (rgb 255 0 128 : Nat)) 2 = 255 ∧ ch (word (rgb 255 0 128 : Nat)) 1 = 0 ∧
    ch (word (rgb 255 0 128 : Nat)) 0 = 128 := by decide

theorem witness_PackArgbPacksLowBytes :
    (255 ≤ 255 ∧ 0 ≤ 255 ∧ 128 ≤ 255 ∧ 1 ≤ 255) ∧
    ch (word (argb 255 0 128 1 : Nat)) 3 = 255 ∧ ch (word (argb 255 0 128 1 : Nat)) 2 = 0 ∧
    ch (word (argb 255 0 128 1 : Nat)) 1 = 128 ∧ ch (word (argb 255 0 128 1 : Nat)) 0 = 1 := by decide

/-- The hues at both ends of each section (95_test_vectors.md section 3.1); the equations of the other premises define. -/
theorem witness_HsvConvertsInThreeSections :
    ((84#32).toInt % 255).toNat = 84 ∧ ((85#32).toInt % 255).toNat = 85 ∧ ((169#32).toInt % 255).toNat = 169 ∧
    ((170#32).toInt % 255).toNat = 170 ∧ ((254#32).toInt % 255).toNat = 254 ∧ ((255#32).toInt % 255).toNat = 0 ∧
    ((0xFFFFFFFF#32).toInt % 255).toNat = 254 ∧
    answer (exec (.hsv true true 84#32 0#32 0#32) rgbState) = some (colour3 0 252 0, false, false) ∧
    answer (exec (.hsv true true 85#32 0#32 0#32) rgbState) = some (colour3 0 252 0, false, false) ∧
    answer (exec (.hsv true true 169#32 0#32 0#32) rgbState) = some (colour3 0 0 252, false, false) ∧
    answer (exec (.hsv true true 170#32 0#32 0#32) rgbState) = some (colour3 0 0 252, false, false) ∧
    answer (exec (.hsv true true 254#32 0#32 0#32) rgbState) = some (colour3 252 0 0, false, false) ∧
    answer (exec (.hsv true true 255#32 0#32 0#32) rgbState) = some (colour3 252 0 0, false, false) := by decide

/-- `HsvChannelsBetweenFloorAndValue` at its two special values: sat 0 (grey) and val 0 (black); section 3.2. -/
theorem witness_HsvChannelsBetweenFloorAndValue :
    answer (exec (.hsv false true 0#32 0x100#32 0#32) rgbState) = some (colour3 255 255 255, false, false) ∧
    answer (exec (.hsv false false 0#32 511#32 256#32) rgbState) = some (0#32, false, false) := by decide

theorem witness_HsvReadsHueModulo255AndLowBytes :
    (0xFFFFFFFF#32).toInt % 255 = (254#32).toInt % 255 ∧ (0xFFFFFFFF#32) ≠ (254#32) ∧
    (200#32).toNat % 256 = (0x1C8#32).toNat % 256 ∧ (150#32).toNat % 256 = (0xFF96#32).toNat % 256 := by decide

/-- Each clause of `FadeScalesChannels`: brightness 255 and the largest, 0 and the least, 1 and 254 (section 4). -/
theorem witness_FadeScalesChannels :
    (255 ≤ (255#32).toInt ∧ 255 ≤ (0x7FFFFFFF#32).toInt ∧ (0#32).toInt ≤ 0 ∧ (0x80000000#32).toInt ≤ 0 ∧
      (1#32).toInt = (1 : Nat) ∧ (254#32).toInt = (254 : Nat)) ∧
    answer (exec (.fade 0xFFFFFFFF#32 255#32) rgbState) = some (0xFFFFFFFF#32, false, false) ∧
    answer (exec (.fade 0xFFFFFFFF#32 0x80000000#32) rgbState) = some (0#32, false, false) ∧
    answer (exec (.fade 0x00123456#32 1#32) rgbState) = some (0#32, false, false) ∧
    answer (exec (.fade 0xFFFFFFFF#32 254#32) rgbState) = some (0x00FDFDFD#32, false, false) := by decide

theorem witness_FadeIsMonotoneAndNeverBrightens :
    (0x80000000#32).toInt ≤ (254#32).toInt ∧ (254#32).toInt ≤ (255#32).toInt := by decide

/-- `BLEND` at both ends of alpha, where the clamp reaches them, and a channel blended with itself (section 5.2). -/
theorem witness_BlendChannelNeverReaches255 :
    answer (exec (.blend 0x00FF0000#32 0#32 0x000000FF#32) rgbState) = some (0x00FE0000#32, false, false) ∧
    answer (exec (.blend 0x00FF0000#32 255#32 0x000000FF#32) rgbState) = some (0x000000FE#32, false, false) ∧
    answer (exec (.blend 0x00102030#32 0x80000000#32 0x00F0E0D0#32) rgbState) = some (0x000F1F2F#32, false, false) ∧
    answer (exec (.blend 0x00102030#32 256#32 0x00F0E0D0#32) rgbState) = some (0x00EFDFCF#32, false, false) ∧
    clamped 0#32 = 0 ∧ clamped 0xFFFFFFFF#32 = 0 ∧ clamped 255#32 = 255 ∧ clamped 256#32 = 255 ∧
    lane 0x00FF0000#32 2 = lane 0x00FF00FF#32 2 ∧
    answer (exec (.blend 0x00FF0000#32 128#32 0x00FF00FF#32) rgbState) = some (0x00FE007F#32, false, false) := by decide

/-- Each clause of `GradSamplesByIndex` at its boundary: index -1 and `n`, 0, `n - 1`, and the interior from 1 to `n - 2`, with
`n` = 5; and steps 1 acting as 2 (section 6). -/
theorem witness_GradSamplesByIndex :
    ((0xFFFFFFFF#32).toInt < 0 ∧ (5 : Int) ≤ (5#32).toInt ∧ (4#32).toInt = 5 - 1 ∧ 0 < (1#32).toInt ∧
      (3#32).toInt < 5 - 1 ∧ ((51 : Nat) : Int) = 255 * 1 / 5 ∧ ((153 : Nat) : Int) = 255 * 3 / 5) ∧
    answer (exec (.grad 0x00FF0000#32 0x000000FF#32 5#32 0xFFFFFFFF#32) rgbState) = some (0xFFFFFFFF#32, true, false) ∧
    answer (exec (.grad 0x00FF0000#32 0x000000FF#32 5#32 0#32) rgbState) = some (0x00FF0000#32, false, false) ∧
    answer (exec (.grad 0x00FF0000#32 0x000000FF#32 5#32 1#32) rgbState) = some (0x00CB0032#32, false, false) ∧
    answer (exec (.grad 0x00FF0000#32 0x000000FF#32 5#32 3#32) rgbState) = some (0x00650098#32, false, false) ∧
    answer (exec (.grad 0x00FF0000#32 0x000000FF#32 5#32 4#32) rgbState) = some (0x000000FF#32, false, false) ∧
    answer (exec (.grad 0x00FF0000#32 0x000000FF#32 5#32 5#32) rgbState) = some (0xFFFFFFFF#32, true, false) ∧
    answer (exec (.grad 0x00FF0000#32 0x000000FF#32 1#32 1#32) rgbState) = some (0x000000FF#32, false, false) := by
  decide

theorem witness_GradInteriorIsBlend :
    (5 : Int) = max 2 (5#32).toInt ∧ 0 < (3#32).toInt ∧ (3#32).toInt < 5 - 1 ∧ (153#32).toInt = 255 * (3#32).toInt / 5 := by
  decide

theorem witness_LanesDoNotMix :
    1 < 3 ∧ lane 0x11223344#32 1 = lane 0xFFFF33FF#32 1 ∧ lane 0x01020304#32 1 = lane 0xAAAA03AA#32 1 := by decide

/-- Each clause of `LdpxReadsPixel`: index -1, `length`, 0 and `length - 1` under both layouts (section 7.1). -/
theorem witness_LdpxReadsPixel :
    (rgbState.px = some rgbStore ∧ argbState.px = some argbStore ∧ rgbState.layout = .rgb ∧ argbState.layout = .argb ∧
      (0xFFFFFFFF#32).toInt < 0 ∧ ((rgbStore.size / rgbState.layout.stride : Nat) : Int) ≤ (2#32).toInt ∧
      (0#32).toInt = (0 : Nat) ∧ (1#32).toInt = (1 : Nat) ∧ 1 < rgbStore.size / 3 ∧ 1 < argbStore.size / 4) ∧
    answer (exec (.ldpx 0xFFFFFFFF#32) rgbState) = some (0xFFFFFFFF#32, true, false) ∧
    answer (exec (.ldpx 0#32) rgbState) = some (0x00123456#32, false, false) ∧
    answer (exec (.ldpx 1#32) rgbState) = some (0x00ABCDEF#32, false, false) ∧
    answer (exec (.ldpx 2#32) rgbState) = some (0xFFFFFFFF#32, true, false) ∧
    answer (exec (.ldpx 0#32) argbState) = some (0x80123456#32, false, false) ∧
    answer (exec (.ldpx 1#32) argbState) = some (0xFFFFFFFF#32, false, false) := by decide

/-- Each clause of `StpxWritesPixel`: index -1, `length`, 0 and `length - 1` under both layouts (section 7.2). -/
theorem witness_StpxWritesPixel :
    (rgbState.px = some rgbStore ∧ rgbStore.wf ∧ argbState.px = some argbStore ∧ argbStore.wf) ∧
    answer (exec (.stpx 0xFFFFFFFF#32 0x00010203#32) rgbState) = some (0#32, true, false) ∧
    bytesAfter (exec (.stpx 0xFFFFFFFF#32 0x00010203#32) rgbState) = bytesOf rgbState ∧
    bytesAfter (exec (.stpx 2#32 0x00010203#32) rgbState) = bytesOf rgbState ∧
    bytesAfter (exec (.stpx 1#32 0x80010203#32) rgbState) =
      some [0x12#8, 0x34#8, 0x56#8, 0x01#8, 0x02#8, 0x03#8, 0x77#8] ∧
    answer (exec (.stpx 1#32 0x80010203#32) rgbState) = some (0#32, false, false) ∧
    bytesAfter (exec (.stpx 0#32 0x80010203#32) argbState) =
      some [0x80#8, 0x01#8, 0x02#8, 0x03#8, 0xFF#8, 0xFF#8, 0xFF#8, 0xFF#8] := by decide

/-- Both of its clauses: an index in range and one out of range. -/
theorem witness_StpxFrame :
    rgbState.px = some rgbStore ∧ rgbStore.wf ∧
    (nextOf (exec (.stpx 1#32 0#32) rgbState)).isSome = true ∧ (nextOf (exec (.stpx 2#32 0#32) rgbState)).isSome = true ∧
    pixelAddr rgbState.layout (sint 1#32).toNat = 3 ∧ inRange (sint 2#32) (rgbStore.length rgbState.layout) = false := by
  decide

theorem witness_StorelessFrame :
    (Instr.ldpx 1#32).op ≠ .stpx ∧ (nextOf (exec (.ldpx 1#32) rgbState)).isSome = true ∧
    (nextOf (exec (.hsv true true 1#32 0#32 0#32) freedState)).isSome = true := by decide

theorem witness_PixelRoundTrip :
    argbState.px = some argbStore ∧ argbStore.wf ∧ 0 ≤ (1#32).toInt ∧
    (1#32).toInt < (argbStore.size / argbState.layout.stride : Nat) := by decide

theorem witness_StpxLeavesOtherPixels :
    rgbState.px = some rgbStore ∧ rgbStore.wf ∧ (0#32) ≠ (1#32) ∧
    (nextOf (exec (.stpx 1#32 0x00010203#32) rgbState)).isSome = true := by decide

/-- Address 6 is the trailing byte; the second store differs from the first only there. -/
theorem witness_TrailingBytesNeverAccessed :
    rgbState.px = some rgbStore ∧ rgbStore.wf ∧ rgbStore.size / rgbState.layout.stride * rgbState.layout.stride ≤ 6 ∧
    (nextOf (exec (.stpx 1#32 0#32) rgbState)).isSome = true ∧
    (Store.ofContents [0x12#8, 0x34#8, 0x56#8, 0xAB#8, 0xCD#8, 0xEF#8, 0x00#8]).wf ∧
    (Store.ofContents [0x12#8, 0x34#8, 0x56#8, 0xAB#8, 0xCD#8, 0xEF#8, 0x00#8]).size = rgbStore.size ∧
    (∀ k, k < rgbStore.size / rgbState.layout.stride * rgbState.layout.stride →
      (Store.ofContents [0x12#8, 0x34#8, 0x56#8, 0xAB#8, 0xCD#8, 0xEF#8, 0x00#8]).byteAt k = rgbStore.byteAt k) := by
  decide

theorem witness_LdpxIsIdempotent : (nextOf (exec (.ldpx 1#32) rgbState)).isSome = true := by decide

theorem witness_ColourOperationsIgnoreState :
    (Instr.grad 0#32 1#32 2#32 5#32).op ≠ .ldpx ∧ (Instr.grad 0#32 1#32 2#32 5#32).op ≠ .stpx := by decide

theorem witness_OnlyStpxChangesTheStore :
    (nextOf (exec (.stpx 1#32 0#32) rgbState)).map (·.px) ≠ some rgbState.px := by decide

/-- Each of its clauses that has a premise; a refusal has none. -/
theorem witness_InstructionsStopOnlyWithoutStore :
    freedState.px = none ∧ nextOf (exec (.ldpx 0#32) freedState) = none ∧
    nextOf (exec (.stpx 0#32 0#32) freedState) = none := by decide

/-- An index in range and one out of range, for each instruction that checks one, and one that checks none. -/
theorem witness_OobExactlyWhenIndexOutOfRange :
    rgbState.px = some rgbStore ∧
    (answer (exec (.grad 0#32 0#32 2#32 1#32) rgbState)).map (·.2.1) = some false ∧
    (answer (exec (.grad 0#32 0#32 2#32 2#32) rgbState)).map (·.2.1) = some true ∧
    (answer (exec (.ldpx 1#32) rgbState)).map (·.2.1) = some false ∧
    (answer (exec (.ldpx 2#32) rgbState)).map (·.2.1) = some true ∧
    (answer (exec (.stpx 1#32 0#32) rgbState)).map (·.2.1) = some false ∧
    (answer (exec (.stpx 0xFFFFFFFF#32 0#32) rgbState)).map (·.2.1) = some true ∧
    (answer (exec (.fade 0xFFFFFFFF#32 255#32) rgbState)).map (·.2.1) = some false := by decide

theorem witness_DecodeOfEncode :
    (Instr.hsv true false 7#32 0#32 9#32).wf = true ∧ (Instr.grad 1#32 2#32 3#32 4#32).wf = true := by decide

theorem witness_EncodeOfDecode :
    decoded 0xDEADBEEF_00000096_DEADBEEF_00000064_00000104#160 = some (.hsv true false 100#32 0#32 150#32) := by decide

/-- Both directions, at the edges of the section's ranges: `OPC` 0x01 and 0x09 are legal, 0x00, 0x0A and 0xFF are not; `MOD` 1 is
legal for 0x03 and 0x04 and not for 0x05; bits 10 and 31. -/
theorem witness_RejectedExactlyWhenReserved :
    (rejected 0x00000001#160).isSome = false ∧ (rejected 0x00000009#160).isSome = false ∧
    (rejected 0x00000103#160).isSome = false ∧ (rejected 0x00000104#160).isSome = false ∧
    rejected 0x00000000#160 = some .unassignedOpcode ∧ rejected 0x0000000A#160 = some .unassignedOpcode ∧
    rejected 0x000000FF#160 = some .unassignedOpcode ∧ rejected 0x00000105#160 = some .modNotZero ∧
    rejected 0x00000400#160 = some .reservedBitSet ∧ rejected 0x80000001#160 = some .reservedBitSet := by decide

/-- One command word of each clause. -/
theorem witness_IgnoredWordsChangeNothing :
    (0x00000303#32) ∈ [0x00000003#32, 0x00000103#32, 0x00000203#32, 0x00000303#32, 0x00000008#32] ∧
    (0x00000009#32) ∈ [0x00000005#32, 0x00000009#32] ∧ (0x00000006#32) ∈ [0x00000001#32, 0x00000006#32] ∧
    answer (step (asking rgbState (reqBits 0x00000304#32 0#32 0xDEADBEEF#32 0xDEADBEEF#32 0xDEADBEEF#32))) =
      some (0x00FC0000#32, false, false) := by decide

theorem witness_StepRunsDecodedInstruction :
    (asking rgbState 0x00000000_00000000_00000000_00000001_00000008#160).inputs =
      .request 0x00000000_00000000_00000000_00000001_00000008#160 :: [] ∧
    decoded 0x00000000_00000000_00000000_00000001_00000008#160 = some (.ldpx 1#32) ∧
    decodeTableWord 64 0x00000001_00000008 = some (.ldpx 1#32) := by decide

/-- Each clause of `StepIsTransition`: a response with the store as it was, one with a store written, a fault. -/
theorem witness_StepIsTransition :
    (asking rgbState (encode (.ldpx 1#32))).inputs = .request (encode (.ldpx 1#32)) :: [] ∧
    (match transition .rgb (some rgbStore) (encode (.ldpx 1#32)) with
      | .next (px, r) => decide (px = some rgbStore ∧ r = .done 0x00ABCDEF#32)
      | _ => false) = true ∧
    (match transition .rgb (some rgbStore) (encode (.stpx 1#32 0#32)) with
      | .next (px, r) => decide (px = some (Store.ofContents [0x12#8, 0x34#8, 0x56#8, 0#8, 0#8, 0#8, 0x77#8]) ∧ r = .done 0#32)
      | _ => false) = true ∧
    (match transition .rgb none (encode (.ldpx 1#32)) with
      | .fault f => decide (f = .storeAbsent)
      | _ => false) = true ∧
    decoded (encode (.ldpx 1#32)) = some (.ldpx 1#32) := by decide

theorem witness_AskRunsTheInstruction :
    (Instr.hsv false true 100#32 200#32 0#32).wf = true ∧
    answer (ask (.hsv false true 100#32 200#32 0#32) rgbState) = some (0x0037DA59#32, false, false) := by decide

theorem witness_ReservedRequestIsAnsweredIll :
    (asking freedState 0x0000000A#160).inputs = .request 0x0000000A#160 :: [] ∧
    rejected 0x0000000A#160 = some .unassignedOpcode := by decide

theorem witness_NothingHappensBetweenRequests : State.reset.inputs = [] := by decide

/-- Its two clauses: an owned store; and an aliased one with each kind of access, the last byte, and an empty rewrite. -/
theorem witness_HolderActsOnAliasedStoreOnly :
    ({ State.reset with inputs := [.holder .free] } : State).inputs = .holder .free :: [] ∧ State.reset.storeOwned = true ∧
    rgbState.storeOwned = false ∧ rgbState.px = some rgbStore ∧ rgbStore.wf ∧ 6 < rgbStore.size ∧
    ([] : List Byte).length ≤ 2147483647 ∧
    (nextOf (step { rgbState with inputs := [.holder (.readByte 6)] })).isSome = true ∧
    bytesAfter (step { rgbState with inputs := [.holder (.writeByte 6 0#8)] }) =
      some [0x12#8, 0x34#8, 0x56#8, 0xAB#8, 0xCD#8, 0xEF#8, 0#8] ∧
    bytesAfter (step { rgbState with inputs := [.holder (.rewrite [])] }) = some [] ∧
    (nextOf (step { rgbState with inputs := [.holder .free] })).map (·.px) = some none := by decide

/-- The largest length that the bound lets through, for each layout, and length 0. -/
theorem witness_ResetAllocatesZeroedStore :
    ({ rgbState with inputs := [.reset (.allocate .argb 2)] } : State).inputs = .reset (.allocate .argb 2) :: [] ∧
    2 * Layout.argb.stride ≤ 2147483647 ∧ 0 * Layout.argb.stride ≤ 2147483647 ∧
    715827882 * Layout.rgb.stride ≤ 2147483647 ∧ 536870911 * Layout.argb.stride ≤ 2147483647 ∧
    (nextOf (step { rgbState with inputs := [.reset (.allocate .argb 536870911)] })).isSome = true := by decide

theorem witness_ResetWrapsSuppliedStore :
    ({ State.reset with inputs := [.reset (.wrap .rgb [1#8, 2#8])] } : State).inputs = .reset (.wrap .rgb [1#8, 2#8]) :: [] ∧
    [1#8, 2#8].length ≤ 2147483647 ∧
    bytesAfter (step { State.reset with inputs := [.reset (.wrap .rgb [1#8, 2#8])] }) = some [1#8, 2#8] := by decide

/-- An owned store that a step changes, and a layout that a step changes. -/
theorem witness_OwnedStoreChangesOnlyByStpxOrReset :
    State.reset.storeOwned = true ∧
    (nextOf (step (asking State.reset (encode (.stpx 3#32 5#32))))).map (·.px) ≠ some State.reset.px ∧
    (nextOf (step { State.reset with inputs := [.reset (.allocate .argb 1)] })).map (·.layout) ≠
      some State.reset.layout := by decide

/-- Both ways to meet its premise: a store is attached, and no pixel is accessed. -/
theorem witness_EveryRequestGetsOneResponse :
    (asking rgbState 0x00000000#160).inputs = .request 0x00000000#160 :: [] ∧ rgbState.px ≠ none ∧
    decoded 0x00000304#160 = some (.hsv true true 0#32 0#32 0#32) ∧
    answer (step (asking freedState 0x00000304#160)) = some (0x00FC0000#32, false, false) := by decide

theorem witness_EveryRunOfRequestsIsAnswered :
    rgbState.px ≠ none ∧
    ({ rgbState with inputs := [.request 0x00000008#160, .request 0x00000000#160] } : State).inputs =
      [0x00000008#160, 0x00000000#160].map .request ∧
    (match transitions .rgb (some rgbStore) [0x00000008#160, 0x00000000#160] with
      | .next (_, rs) => decide (rs = [.done 0x00123456#32, .reserved])
      | _ => false) = true := by decide

/-- The fault and each way to the two refusals but a rewrite of 2^31 bytes: the first byte past the store, read and written, and a
freed store, where the last byte and an attached store go on. -/
theorem witness_StepStopsOnlyOutsideThePremises :
    nextOf (step (asking freedState 0x00000008#160)) = none ∧
    nextOf (step { rgbState with inputs := [.holder (.readByte 7)] }) = none ∧
    nextOf (step { rgbState with inputs := [.holder (.writeByte 7 1#8)] }) = none ∧
    nextOf (step { freedState with inputs := [.holder (.rewrite [])] }) = none ∧
    (nextOf (step { rgbState with inputs := [.holder (.readByte 6)] })).isSome = true ∧
    nextOf (step { rgbState with inputs := [.reset (.allocate .rgb 715827883)] }) = none := by decide

theorem witness_StepKeepsInvariant :
    rgbState.Inv ∧ (asking State.reset (encode (.stpx 0#32 0x00FC0000#32))).Inv ∧
    (nextOf (step (asking State.reset (encode (.stpx 0#32 0x00FC0000#32))))).isSome = true := by decide

/-- Operands of every kind that has a word; and every `k` of `UNPACK`. -/
theorem witness_PseudoInstructionsAreAliases :
    (AsmOperand.int (-1)).value [7#32] = some 0xFFFFFFFF#32 ∧ (AsmOperand.result 0).value [7#32] = some 7#32 ∧
    (AsmOperand.hex 0x96#32).value [7#32] = some 0x96#32 ∧
    (assemble [7#32] ⟨.hsv, [.int (-1), .result 0]⟩).map encode =
      some 0x00000000_00000000_00000007_FFFFFFFF_00000204#160 ∧
    (0, AsmName.unpackb) ∈ [(0, AsmName.unpackb), (1, .unpackg), (2, .unpackr), (3, .unpacka)] ∧
    assemble [7#32] ⟨.unpack, [.result 0, .int 3]⟩ = some (.unpacka 7#32) := by decide

theorem witness_AssembledRequestsDecode :
    assemble [] ⟨.hsv, [.int 100, .dash, .int 150]⟩ = some (.hsv true false 100#32 0#32 150#32) := by decide

/-- Two steps on a store of two pixels and one trailing byte. -/
theorem witness_GradientFillsTheBuffer :
    rgbState.px = some rgbStore ∧ rgbStore.wf ∧ ((2 : Nat) : Int) = max 2 (2#32).toInt ∧
    rgbStore.size / rgbState.layout.stride = 2 ∧ 0 ≤ (1#32).toInt ∧ (1#32).toInt < (2 : Nat) := by decide

end Sys2Proof.Tests
end

section
/-! PROOFS. The channel codec (40_channel_codec.md): how a request's words reach the decoder, the packed words and the channels as
bit fields, and with them rules R81, R82 and R84 to R87. -/

namespace Sys2Proof.Machine

/-! Decoding a request given by its five words -/

theorem ofBits_reqBits (cmd a b c d : Word) : Request.ofBits (reqBits cmd a b c d) = ⟨cmd, a, b, c, d⟩ :=
  Request.ofBits_toBits ⟨cmd, a, b, c, d⟩

/-- The command word alone chooses the operation (30_encoding.md rule R69). -/
theorem decode_reqBits {cmd : Word} {op : Op} (h : selectedOp cmd = some op) (a b c d : Word) :
    decode (reqBits cmd a b c d) = .ok (withOperands op ⟨cmd, a, b, c, d⟩) := by
  simp only [decode, ofBits_reqBits, h]

/-! An instruction that answers `Response.done` -/

theorem answersWith_of_exec_done {i : Instr} {s : State} {w y : Word}
    (hexec : exec i s = .next (s.respond (.done w))) (hy : w = y) : AnswersWith i s y false :=
  hy ▸ hexec

/-! Channels as bit fields -/

theorem mask8_eq_toNat_ofInt (x : Int) : mask8 x = (BitVec.ofInt 8 x).toNat := rfl

theorem mask8_natCast_of_le {n : Nat} (h : n ≤ 255) : mask8 n = n := by
  rw [mask8_natCast, Nat.mod_eq_of_lt (by omega)]

theorem ofInt_uint (w : Word) : BitVec.ofInt 8 (uint w) = w.extractLsb' 0 8 := by
  apply BitVec.eq_of_toNat_eq
  simp [uint, BitVec.extractLsb'_toNat]

theorem ch_eq_toNat_extractLsb' (c : Word) (k : Nat) : ch c k = (c.extractLsb' (8 * k) 8).toNat := by
  rw [ch, mask8_natCast, BitVec.extractLsb'_toNat, uint]

/-- The pack function concatenates the low bytes of its arguments (rule R80). -/
theorem word_argb_eq_append (a r g b : Int) :
    word (argb a r g b : Nat) =
      BitVec.ofInt 8 a ++ BitVec.ofInt 8 r ++ BitVec.ofInt 8 g ++ BitVec.ofInt 8 b := by
  apply BitVec.eq_of_toNat_eq
  rw [toNat_word_argb, argb]
  simp only [BitVec.toNat_append, mask8_eq_toNat_ofInt, Nat.shiftLeft_or_distrib, ← Nat.shiftLeft_add]

/-- A three-channel colour is a four-channel one with alpha 0 (rule R80). -/
theorem rgb_eq_argb_zero (r g b : Int) : rgb r g b = argb 0 r g b := by
  simp [rgb, argb, mask8]

theorem word_rgb_eq_append (r g b : Int) :
    word (rgb r g b : Nat) = 0#8 ++ BitVec.ofInt 8 r ++ BitVec.ofInt 8 g ++ BitVec.ofInt 8 b := by
  rw [rgb_eq_argb_zero]
  exact word_argb_eq_append 0 r g b

/-- The unpack function zero-extends one byte of the word (rule R83). -/
theorem word_ch_eq_append (c : Word) (k : Nat) : word (ch c k) = 0#24 ++ c.extractLsb' (8 * k) 8 := by
  apply BitVec.eq_of_toNat_eq
  rw [toNat_word_of_lt (by have := ch_lt c k; omega), ch_eq_toNat_extractLsb', BitVec.toNat_append]
  simp

/-! What the pack and unpack instructions answer -/

theorem packrgb_answersWith (r g b : Word) (s : State) :
    AnswersWith (.packrgb r g b) s
      (0#8 ++ r.extractLsb' 0 8 ++ g.extractLsb' 0 8 ++ b.extractLsb' 0 8) false :=
  answersWith_of_exec_done rfl (by simp only [word_rgb_eq_append, ofInt_uint])

theorem packargb_answersWith (a r g b : Word) (s : State) :
    AnswersWith (.packargb a r g b) s
      (a.extractLsb' 0 8 ++ r.extractLsb' 0 8 ++ g.extractLsb' 0 8 ++ b.extractLsb' 0 8) false :=
  answersWith_of_exec_done rfl (by simp only [word_argb_eq_append, ofInt_uint])

theorem answersWith_of_exec_unpackChannel {i : Instr} {c : Word} {k : Nat} {s : State}
    (hexec : exec i s = .next (s.respond (unpackChannel c k))) :
    AnswersWith i s (0#24 ++ c.extractLsb' (8 * k) 8) false :=
  answersWith_of_exec_done hexec (word_ch_eq_append c k)

/-! The obligations -/

/-- Settles O1: the command word selects the row of `PACKRGB`, and `rgb` concatenates low bytes. -/
theorem packRgbPacksLowBytes : Obligations.PackRgbPacksLowBytes := by
  refine ⟨fun a b c d s =>
    ⟨decode_reqBits (Laws.RowSelected.packrgb a b c) a b c d, packrgb_answersWith a b c s⟩, ?_⟩
  intro r g b hr hg hb
  rw [ch_word_rgb_2, ch_word_rgb_1, ch_word_rgb_0]
  exact ⟨mask8_natCast_of_le hr, mask8_natCast_of_le hg, mask8_natCast_of_le hb⟩

/-- Settles O2: the command word selects the row of `PACKARGB`, and `argb` concatenates low bytes. -/
theorem packArgbPacksLowBytes : Obligations.PackArgbPacksLowBytes := by
  refine ⟨fun a b c d s =>
    ⟨decode_reqBits (Laws.RowSelected.packargb a b c d) a b c d, packargb_answersWith a b c d s⟩, ?_⟩
  intro a r g b ha hr hg hb
  rw [ch_word_argb_3, ch_word_argb_2, ch_word_argb_1, ch_word_argb_0]
  exact ⟨mask8_natCast_of_le ha, mask8_natCast_of_le hr, mask8_natCast_of_le hg, mask8_natCast_of_le hb⟩

/-- Settles O3: each command word selects its own unpack, whose channel is a byte of the colour. -/
theorem unpackExtractsOneChannel : Obligations.UnpackExtractsOneChannel := by
  intro a b c d s
  refine ⟨⟨decode_reqBits (Laws.RowSelected.unpackb a) a b c d, ?blue⟩,
    ⟨decode_reqBits (Laws.RowSelected.unpackg a) a b c d, ?green⟩,
    ⟨decode_reqBits (Laws.RowSelected.unpackr a) a b c d, ?red⟩,
    ⟨decode_reqBits (Laws.RowSelected.unpacka a) a b c d, ?alpha⟩⟩
  case blue => exact answersWith_of_exec_unpackChannel (k := 0) rfl
  case green => exact answersWith_of_exec_unpackChannel (k := 1) rfl
  case red => exact answersWith_of_exec_unpackChannel (k := 2) rfl
  case alpha => exact answersWith_of_exec_unpackChannel (k := 3) rfl

end Sys2Proof.Machine
end

section
/-! PROOFS. The decoder and the encoder (30_encoding.md): the row that a command word selects, the round trips between an
instruction and its request, which command words are reserved, and the words that an operation ignores. -/

namespace Sys2Proof.Machine

/-! The round trip from an instruction -/

/-- The rows of the opcode map, taken together (rule R63). -/
theorem selectedOp_request (i : Instr) : selectedOp i.request.cmd = some i.op := by
  cases i with
  | packrgb r g b => exact Laws.RowSelected.packrgb r g b
  | packargb a r g b => exact Laws.RowSelected.packargb a r g b
  | unpackb c => exact Laws.RowSelected.unpackb c
  | unpackg c => exact Laws.RowSelected.unpackg c
  | unpackr c => exact Laws.RowSelected.unpackr c
  | unpacka c => exact Laws.RowSelected.unpacka c
  | hsv sd vd hue sat val => exact Laws.RowSelected.hsv sd vd hue sat val
  | fade c brightness => exact Laws.RowSelected.fade c brightness
  | blend ca alpha cb => exact Laws.RowSelected.blend ca alpha cb
  | grad start stop steps index => exact Laws.RowSelected.grad start stop steps index
  | ldpx index => exact Laws.RowSelected.ldpx index
  | stpx index c => exact Laws.RowSelected.stpx index c

@[simp] theorem sdBit_hsvCommand (sd vd : Bool) : sdBit (hsvCommand sd vd) = sd := by
  cases sd <;> cases vd <;> decide

@[simp] theorem vdBit_hsvCommand (sd vd : Bool) : vdBit (hsvCommand sd vd) = vd := by
  cases sd <;> cases vd <;> decide

/-- Only `HSV` can have an operand word that must be 0. -/
theorem wf_hsv_iff (sd vd : Bool) (hue sat val : Word) :
    (Instr.hsv sd vd hue sat val).wf = true ↔ (sd = true → sat = 0#32) ∧ (vd = true → val = 0#32) := by
  cases sd <;> cases vd <;> simp [Instr.wf]

theorem withOperands_request {i : Instr} (h : i.wf = true) : withOperands i.op i.request = i := by
  cases i with
  | hsv sd vd hue sat val =>
    obtain ⟨hsat, hval⟩ := (wf_hsv_iff sd vd hue sat val).1 h
    have hsat' : (if sd then 0#32 else sat) = sat := by split <;> simp_all
    have hval' : (if vd then 0#32 else val) = val := by split <;> simp_all
    simp only [withOperands, Instr.op, Instr.request, sdBit_hsvCommand, vdBit_hsvCommand, hsat', hval']
  | _ => rfl

theorem ofBits_encode (i : Instr) : Request.ofBits (encode i) = i.request := Request.ofBits_toBits i.request

/-- The request of a well-formed instruction stands for it (rules R60 to R63). -/
theorem decode_encode {i : Instr} (h : i.wf = true) : decode (encode i) = .ok i := by
  simp only [decode, ofBits_encode, selectedOp_request, withOperands_request h]

/-! The round trip from a request -/

theorem selects_fullMask (op : Op) (p cmd : Word) : OpRow.selects ⟨op, p, 0xFFFFFFFF#32⟩ cmd = true ↔ cmd = p := by
  have hmask : cmd &&& 0xFFFFFFFF#32 = cmd := BitVec.and_allOnes
  simp [OpRow.selects, hmask]

/-- A command word is its three fields side by side (rule R61). -/
theorem cmd_eq_fields (cmd : Word) : cmd = reservedField cmd ++ modField cmd ++ opcField cmd := by
  ext k hk
  simp only [reservedField, modField, opcField]
  grind

@[simp] theorem reservedField_append (high : BitVec 22) (mod : BitVec 2) (opc : BitVec 8) :
    reservedField (high ++ mod ++ opc) = high := by
  ext k hk
  simp only [reservedField]
  grind

@[simp] theorem opcField_append (high : BitVec 22) (mod : BitVec 2) (opc : BitVec 8) :
    opcField (high ++ mod ++ opc) = opc := BitVec.extractLsb'_append_eq_right

theorem toNat_cmd (cmd : Word) :
    cmd.toNat = (reservedField cmd).toNat * 1024 + (modField cmd).toNat * 256 + (opcField cmd).toNat := by
  have := cmd.isLt
  simp only [reservedField, modField, opcField, BitVec.extractLsb'_toNat, Nat.shiftRight_eq_div_pow]
  omega

/-- The mask of `HSV` drops `MOD` and nothing else (rule R63). -/
theorem and_hsvMask (cmd : Word) : cmd &&& 0xFFFFFCFF#32 = reservedField cmd ++ 0#2 ++ opcField cmd := by
  conv_lhs => rw [cmd_eq_fields cmd, show 0xFFFFFCFF#32 = BitVec.allOnes 22 ++ 0#2 ++ BitVec.allOnes 8 by decide,
    BitVec.and_append, BitVec.and_append, BitVec.and_allOnes, BitVec.and_allOnes, BitVec.and_zero]

theorem selects_hsvMask (op : Op) (cmd : Word) :
    OpRow.selects ⟨op, 0x00000004#32, 0xFFFFFCFF#32⟩ cmd = true ↔ reservedField cmd = 0#22 ∧ opcField cmd = 4#8 := by
  simp only [OpRow.selects, and_hsvMask, beq_iff_eq]
  constructor
  · intro h
    exact ⟨(reservedField_append ..).symm.trans (congrArg reservedField h),
      (opcField_append ..).symm.trans (congrArg opcField h)⟩
  · rintro ⟨hhigh, hopc⟩
    rw [hhigh, hopc]
    rfl

/-- With `MOD` as its only open field, a command word of `HSV` is told by its default bits (rules R61, R91). -/
theorem hsvCommand_of_fields {cmd : Word} (hhigh : reservedField cmd = 0#22) (hopc : opcField cmd = 4#8) :
    hsvCommand (sdBit cmd) (vdBit cmd) = cmd := by
  rw [cmd_eq_fields cmd, hhigh, hopc]
  generalize modField cmd = mod
  revert mod
  decide

/-- The operands do not reach the command word, which is that of the selected row (rule R63). -/
theorem request_cmd_withOperands {op : Op} {q : Request} (h : selectedOp q.cmd = some op) :
    (withOperands op q).request.cmd = q.cmd := by
  obtain ⟨row, hfind, rfl⟩ := Option.map_eq_some_iff.1 h
  have hsel := List.find?_some hfind
  have hmem := List.mem_of_find?_eq_some hfind
  simp only [opRows, List.mem_cons, List.not_mem_nil, or_false] at hmem
  rcases hmem with rfl | rfl | rfl | rfl | rfl | rfl | rfl | rfl | rfl | rfl | rfl | rfl
  case inr.inr.inr.inr.inr.inr.inl =>
    obtain ⟨hhigh, hopc⟩ := (selects_hsvMask _ _).1 hsel
    exact hsvCommand_of_fields hhigh hopc
  all_goals exact ((selects_fullMask _ _ _).1 hsel).symm

theorem withOperands_wf (op : Op) (q : Request) : (withOperands op q).wf = true := by
  cases op with
  | hsv => exact (wf_hsv_iff ..).2 ⟨fun h => if_pos h, fun h => if_pos h⟩
  | _ => rfl

theorem decode_eq_ok_iff {req : BitVec 160} {i : Instr} :
    decode req = .ok i ↔
      ∃ op, selectedOp (Request.ofBits req).cmd = some op ∧ withOperands op (Request.ofBits req) = i := by
  unfold decode
  cases selectedOp (Request.ofBits req).cmd with
  | none => simp
  | some op => simp

/-! Reserved command words -/

theorem decode_eq_error_iff {req : BitVec 160} {e : Reserved} :
    decode req = .error e ↔
      selectedOp (Request.ofBits req).cmd = none ∧ reservedReason (Request.ofBits req).cmd = e := by
  unfold decode
  cases selectedOp (Request.ofBits req).cmd with
  | none => simp
  | some op => simp

/-! The fields of the command word are bits of the request (rules R60, R61) -/

theorem opcField_ofBits (req : BitVec 160) : opcField (Request.ofBits req).cmd = req.extractLsb' 0 8 :=
  BitVec.extractLsb'_extractLsb'_of_le (by decide)

theorem modField_ofBits (req : BitVec 160) : modField (Request.ofBits req).cmd = req.extractLsb' 8 2 :=
  BitVec.extractLsb'_extractLsb'_of_le (by decide)

theorem reservedField_ofBits (req : BitVec 160) : reservedField (Request.ofBits req).cmd = req.extractLsb' 10 22 :=
  BitVec.extractLsb'_extractLsb'_of_le (by decide)

/-- Rule R64's list of reserved command words, in the fields of rule R61. -/
def ReservedFields (opc : BitVec 8) (mod : BitVec 2) (high : BitVec 22) : Prop :=
  opc = 0x00#8 ∨ 0x0A#8 ≤ opc ∨ high ≠ 0#22 ∨
    (opc ∈ [0x01#8, 0x02#8, 0x05#8, 0x06#8, 0x07#8, 0x08#8, 0x09#8] ∧ mod ≠ 0#2)

/-- No row is selected exactly where the command word is in the list of rule R64. -/
theorem selectedOp_eq_none_iff (cmd : Word) :
    selectedOp cmd = none ↔ ReservedFields (opcField cmd) (modField cmd) (reservedField cmd) := by
  have hcmd := toNat_cmd cmd
  have hmod := (modField cmd).isLt
  have hopc := (opcField cmd).isLt
  simp only [selectedOp, Option.map_eq_none_iff, List.find?_eq_none, opRows, List.forall_mem_cons,
    selects_fullMask, selects_hsvMask]
  simp only [ReservedFields, ← BitVec.toNat_inj, BitVec.le_def, List.mem_cons,
    List.not_mem_nil, BitVec.toNat_ofNat, ne_eq, hcmd, false_imp_iff, implies_true, and_true, or_false]
  generalize (reservedField cmd).toNat = high, (modField cmd).toNat = mod, (opcField cmd).toNat = opc at hmod hopc ⊢
  omega

theorem reservedReason_spec (cmd : Word) :
    (reservedReason cmd = .reservedBitSet → reservedField cmd ≠ 0#22) ∧
    (reservedReason cmd = .unassignedOpcode → opcField cmd = 0x00#8 ∨ 0x0A#8 ≤ opcField cmd) ∧
    (reservedReason cmd = .modNotZero →
      reservedField cmd = 0#22 ∧ ¬ (opcField cmd = 0x00#8 ∨ 0x0A#8 ≤ opcField cmd)) := by
  unfold reservedReason
  split
  · simp_all
  · split <;> simp_all

/-! Ignored words -/

/-- Operand words that the selected operation does not keep make no difference (rule R68). -/
theorem decode_reqBits_congr {cmd a b c d b' c' d' : Word} {op : Op} (hop : selectedOp cmd = some op)
    (hkept : withOperands op ⟨cmd, a, b, c, d⟩ = withOperands op ⟨cmd, a, b', c', d'⟩) :
    decode (reqBits cmd a b c d) = decode (reqBits cmd a b' c' d') := by
  rw [decode_reqBits hop, decode_reqBits hop, hkept]

theorem serve_congr {req req' : BitVec 160} (h : decode req = decode req') (s : State) : serve req s = serve req' s := by
  unfold serve
  rw [h]

/-! The obligations -/

/-- Settles O28: the encoder's command word selects the instruction's own row, and its other words are the operands. -/
theorem decodeOfEncode : Obligations.DecodeOfEncode := fun _ hwf => decode_encode hwf

/-- Settles O29: what a row's operation takes from a request keeps the command word and clears the ignored words. -/
theorem encodeOfDecode : Obligations.EncodeOfDecode := by
  intro req i hdec
  obtain ⟨op, hop, rfl⟩ := decode_eq_ok_iff.1 hdec
  have hwf := withOperands_wf op (Request.ofBits req)
  refine ⟨hwf, ?_, decode_encode hwf⟩
  exact (congrArg Request.cmd (ofBits_encode _)).trans (request_cmd_withOperands hop)

/-- Settles O30: no row is selected exactly for the words of rule R64's list, and the reasons are tested in their order. -/
theorem rejectedExactlyWhenReserved : Obligations.RejectedExactlyWhenReserved := by
  rintro req _ _ _ rfl rfl rfl
  obtain ⟨hbit, hopc, hmod⟩ := reservedReason_spec (Request.ofBits req).cmd
  have hnone := selectedOp_eq_none_iff (Request.ofBits req).cmd
  rw [opcField_ofBits, reservedField_ofBits] at hmod hnone
  rw [modField_ofBits] at hnone
  rw [reservedField_ofBits] at hbit
  rw [opcField_ofBits] at hopc
  simp only [decode_eq_error_iff]
  refine ⟨Iff.trans (by simp) hnone, fun h => hbit h.2, fun h => hopc h.2, ?_⟩
  rintro ⟨hsel, hreason⟩
  obtain ⟨hhigh, hassigned⟩ := hmod hreason
  rcases hnone.1 hsel with h0 | h10 | hset | ⟨_, hmodNe⟩
  · exact absurd (.inl h0) hassigned
  · exact absurd (.inr h10) hassigned
  · exact absurd hhigh hset
  · exact hmodNe

/-- Settles O31: the decoder drops the ignored words, so both requests are served alike. -/
theorem ignoredWordsChangeNothing : Obligations.IgnoredWordsChangeNothing := by
  intro cmd a b c d b' c' d' s rest h
  rw [step_request rfl, step_request rfl]
  refine serve_congr ?_ _
  simp only [List.mem_cons, List.not_mem_nil, or_false] at h
  rcases h with hone | ⟨htwo, rfl⟩ | ⟨hthree, rfl, rfl⟩ | ⟨rfl, rfl, rfl⟩ | ⟨rfl, rfl⟩ | ⟨rfl, rfl⟩ | rfl
  · rcases hone with rfl | rfl | rfl | rfl | rfl
    · exact decode_reqBits_congr (op := .unpackb) (by decide) rfl
    · exact decode_reqBits_congr (op := .unpackg) (by decide) rfl
    · exact decode_reqBits_congr (op := .unpackr) (by decide) rfl
    · exact decode_reqBits_congr (op := .unpacka) (by decide) rfl
    · exact decode_reqBits_congr (op := .ldpx) (by decide) rfl
  · rcases htwo with rfl | rfl
    · exact decode_reqBits_congr (op := .fade) (by decide) rfl
    · exact decode_reqBits_congr (op := .stpx) (by decide) rfl
  · rcases hthree with rfl | rfl
    · exact decode_reqBits_congr (op := .packrgb) (by decide) rfl
    · exact decode_reqBits_congr (op := .blend) (by decide) rfl
  all_goals exact decode_reqBits_congr (op := .hsv) (by decide) (by simp [withOperands, sdBit, vdBit])

/-- Settles O32: each request is decoded by evaluation. -/
theorem sampleRequestsDecode : Obligations.SampleRequestsDecode :=
  ⟨rfl, rfl, rfl, rfl, rfl, rfl, rfl, rfl, rfl⟩

/-- Settles O33: the three fields of a response lie side by side. -/
theorem responseBitFields : Obligations.ResponseBitFields := by
  intro r
  refine ⟨BitVec.extractLsb'_append_eq_right, ?_, ?_⟩
  · simp only [Response.toBits, BitVec.getLsbD_append]
    simp
  · simp only [Response.toBits, BitVec.getLsbD_append]
    simp

end Sys2Proof.Machine
end

section
/-! PROOFS. The unit's reply and the steps around it: an instruction is its reply put into the closed system (10_state.md rule R29),
what the reply can be with a store and without one, and with that the rules about all instructions, the step, the runs and the
invariant. -/

namespace Sys2Proof.Machine

/-! The reply of an instruction -/

/-- The meaning of an instruction is the unit's reply, handed out (rule R29). -/
theorem exec_eq_answer (i : Instr) (s : State) : exec i s = s.answer (perform s.layout s.px i) := by
  cases i <;> rfl

theorem serve_eq_answer (req : BitVec 160) (s : State) : serve req s = s.answer (transition s.layout s.px req) := by
  unfold serve transition
  cases decode req with
  | ok i => exact exec_eq_answer i s
  | error e => rfl

theorem transition_ok {req : BitVec 160} {i : Instr} (h : decode req = .ok i) (layout : Layout) (px : Option Store) :
    transition layout px req = perform layout px i := by
  unfold transition
  rw [h]

theorem transition_reserved {req : BitVec 160} {e : Reserved} (h : decode req = .error e) (layout : Layout)
    (px : Option Store) : transition layout px req = .next (px, .reserved) := by
  unfold transition
  rw [h]

theorem gradSample_outOfRange {start stop : Word} {n i : Int} (h : ¬ (0 ≤ i ∧ i < n)) :
    gradSample start stop n i = .outOfRange sentinel := by
  unfold gradSample
  rw [if_neg (by rwa [inRange_iff])]

theorem gradSample_oob_iff (start stop : Word) (n i : Int) :
    (gradSample start stop n i).oob = true ↔ ¬ (0 ≤ i ∧ i < n) := by
  by_cases h : 0 ≤ i ∧ i < n
  · unfold gradSample
    rw [if_pos ((inRange_iff i n).2 h)]
    split
    · simp [h]
    · split <;> simp [h]
  · simp [gradSample_outOfRange h, h]

/-- The nine operations that check no index are done whatever they meet. -/
theorem perform_unchecked {i : Instr} (hg : i.op ≠ .grad) (hl : i.op ≠ .ldpx) (hs : i.op ≠ .stpx) :
    ∃ y, ∀ layout px, perform layout px i = .next (px, .done y) := by
  cases i with
  | grad => exact absurd rfl hg
  | ldpx => exact absurd rfl hl
  | stpx => exact absurd rfl hs
  | _ => exact ⟨_, fun _ _ => rfl⟩

/-- The ten operations that touch no store give one response, whatever layout and store they meet (rule R142). -/
theorem perform_storeless {i : Instr} (hl : i.op ≠ .ldpx) (hs : i.op ≠ .stpx) :
    ∃ r : Response, r.ill = false ∧ ∀ layout px, perform layout px i = .next (px, r) := by
  by_cases hg : i.op = .grad
  · cases i with
    | grad start stop steps index => exact ⟨_, gradSample_legal _ _ _ _, fun _ _ => rfl⟩
    | _ => cases hg
  · obtain ⟨y, hy⟩ := perform_unchecked hg hl hs
    exact ⟨_, rfl, hy⟩

/-! The pixel accesses with a store attached, as functions of the layout and the store -/

/-- What `LDPX` answers on an attached store (rule R110). -/
def ldpxResponse (layout : Layout) (st : Store) (index : Word) : Response :=
  if 0 ≤ sint index ∧ sint index < st.length layout then
    pixelRead ((List.range layout.stride).map fun k => st.bytes.read (pixelAddr layout (sint index).toNat + k))
  else .outOfRange sentinel

/-- What `STPX` answers on an attached store (rule R111). -/
def stpxResponse (layout : Layout) (st : Store) (index : Word) : Response :=
  if 0 ≤ sint index ∧ sint index < st.length layout then .done 0#32 else .outOfRange 0#32

/-- The store that `STPX` leaves (rule R111). -/
def stpxStore (layout : Layout) (st : Store) (index c : Word) : Store :=
  if 0 ≤ sint index ∧ sint index < st.length layout then
    { st with bytes := st.bytes.writeBytes (pixelAddr layout (sint index).toNat) (pixelBytes layout c) }
  else st

theorem ldpxReply_attached (layout : Layout) (st : Store) (index : Word) :
    ldpxReply layout (some st) index = .next (some st, ldpxResponse layout st index) := by
  unfold ldpxResponse
  split
  · next hin => exact ldpxReply_inside hin.1 hin.2
  · next hout => exact ldpxReply_outside hout

theorem stpxReply_attached (layout : Layout) (st : Store) (index c : Word) :
    stpxReply layout (some st) index c = .next (some (stpxStore layout st index c), stpxResponse layout st index) := by
  unfold stpxStore stpxResponse
  split
  · next hin =>
    obtain ⟨st', hw, he⟩ := stpxReply_inside c hin.1 hin.2
    rw [he, (Store.memWrite_some hw).2]
  · next hout => exact stpxReply_outside c hout

theorem exec_ldpx_attached {s : State} {st : Store} (hs : s.px = some st) (index : Word) :
    exec (.ldpx index) s = .next (s.respond (ldpxResponse s.layout st index)) := by
  rw [exec_eq_answer, hs, perform, ldpxReply_attached, State.answer_next, State.withStore_self hs]

theorem exec_stpx_attached {s : State} {st : Store} (hs : s.px = some st) (index c : Word) :
    exec (.stpx index c) s =
      .next ((s.withStore (some (stpxStore s.layout st index c))).respond (stpxResponse s.layout st index)) := by
  rw [exec_eq_answer, hs, perform, stpxReply_attached, State.answer_next]

@[simp] theorem ldpxResponse_ill (layout : Layout) (st : Store) (index : Word) :
    (ldpxResponse layout st index).ill = false := by
  unfold ldpxResponse
  split <;> rfl

@[simp] theorem stpxResponse_ill (layout : Layout) (st : Store) (index : Word) :
    (stpxResponse layout st index).ill = false := by
  unfold stpxResponse
  split <;> rfl

theorem ldpxResponse_oob_iff (layout : Layout) (st : Store) (index : Word) :
    (ldpxResponse layout st index).oob = true ↔ ¬ (0 ≤ sint index ∧ sint index < st.length layout) := by
  unfold ldpxResponse
  split <;> simp_all [pixelRead]

theorem stpxResponse_oob_iff (layout : Layout) (st : Store) (index : Word) :
    (stpxResponse layout st index).oob = true ↔ ¬ (0 ≤ sint index ∧ sint index < st.length layout) := by
  unfold stpxResponse
  split <;> simp_all

@[simp] theorem stpxStore_size (layout : Layout) (st : Store) (index c : Word) :
    (stpxStore layout st index c).size = st.size := by
  unfold stpxStore
  split <;> rfl

/-! Every instruction, with a store attached and without -/

theorem ldpx_or_stpx_or_storeless (i : Instr) :
    (∃ index, i = .ldpx index) ∨ (∃ index c, i = .stpx index c) ∨ (i.op ≠ .ldpx ∧ i.op ≠ .stpx) := by
  cases i with
  | ldpx index => exact .inl ⟨index, rfl⟩
  | stpx index c => exact .inr (.inl ⟨index, c, rfl⟩)
  | _ => exact .inr (.inr ⟨nofun, nofun⟩)

/-- With a store attached every instruction completes, with one legal response and the store's size kept (rule R148). -/
theorem perform_attached (layout : Layout) (st : Store) (i : Instr) :
    ∃ st' r, perform layout (some st) i = .next (some st', r) ∧ r.ill = false ∧ st'.size = st.size := by
  rcases ldpx_or_stpx_or_storeless i with ⟨index, rfl⟩ | ⟨index, c, rfl⟩ | ⟨hl, hs⟩
  · exact ⟨st, _, ldpxReply_attached layout st index, ldpxResponse_ill .., rfl⟩
  · exact ⟨_, _, stpxReply_attached layout st index c, stpxResponse_ill .., stpxStore_size ..⟩
  · obtain ⟨r, hill, hr⟩ := perform_storeless hl hs
    exact ⟨st, r, hr layout (some st), hill, rfl⟩

/-- Without a store only the pixel accesses stop (log entry 10). -/
theorem perform_fault {layout : Layout} {px : Option Store} {i : Instr} {f : Fault}
    (h : perform layout px i = .fault f) : px = none ∧ f = .storeAbsent ∧ (i.op = .ldpx ∨ i.op = .stpx) := by
  cases px with
  | some st =>
    obtain ⟨st', r, he, -, -⟩ := perform_attached layout st i
    rw [he] at h
    cases h
  | none =>
    rcases ldpx_or_stpx_or_storeless i with ⟨index, rfl⟩ | ⟨index, c, rfl⟩ | ⟨hl, hs⟩
    · exact ⟨rfl, (Host.Outcome.fault.inj h).symm, .inl rfl⟩
    · exact ⟨rfl, (Host.Outcome.fault.inj h).symm, .inr rfl⟩
    · obtain ⟨r, -, hr⟩ := perform_storeless hl hs
      rw [hr layout none] at h
      cases h

theorem perform_ne_refused (layout : Layout) (px : Option Store) (i : Instr) (f : Refusal) :
    perform layout px i ≠ .refused f := by
  intro h
  rcases ldpx_or_stpx_or_storeless i with ⟨index, rfl⟩ | ⟨index, c, rfl⟩ | ⟨hl, hs⟩
  · cases px with
    | none => cases h
    | some st => cases (ldpxReply_attached layout st index).symm.trans h
  · cases px with
    | none => cases h
    | some st => cases (stpxReply_attached layout st index c).symm.trans h
  · obtain ⟨r, -, hr⟩ := perform_storeless hl hs
    cases (hr layout px).symm.trans h

/-- Every operation but `STPX` gives back the store it got (rule R29). -/
theorem perform_next_px {layout : Layout} {px px' : Option Store} {i : Instr} {r : Response}
    (h : perform layout px i = .next (px', r)) (hne : ∀ index c, i ≠ .stpx index c) : px' = px := by
  rcases ldpx_or_stpx_or_storeless i with ⟨index, rfl⟩ | ⟨index, c, rfl⟩ | ⟨hl, hs⟩
  · cases px with
    | none => cases h
    | some st =>
      cases (ldpxReply_attached layout st index).symm.trans h
      rfl
  · exact absurd rfl (hne index c)
  · obtain ⟨r, -, hr⟩ := perform_storeless hl hs
    cases (hr layout px).symm.trans h
    rfl

/-! Every request -/

theorem transition_attached (layout : Layout) (st : Store) (req : BitVec 160) :
    ∃ st' r, transition layout (some st) req = .next (some st', r) ∧ ¬ (r.oob = true ∧ r.ill = true) ∧
      st'.size = st.size := by
  cases hdec : decode req with
  | ok i =>
    obtain ⟨st', r, he, hill, hsize⟩ := perform_attached layout st i
    exact ⟨st', r, (transition_ok hdec ..).trans he, by simp [hill], hsize⟩
  | error e => exact ⟨st, _, transition_reserved hdec .., by simp, rfl⟩

theorem transition_fault {layout : Layout} {px : Option Store} {req : BitVec 160} {f : Fault}
    (h : transition layout px req = .fault f) :
    f = .storeAbsent ∧ px = none ∧ ∃ i, decode req = .ok i ∧ (i.op = .ldpx ∨ i.op = .stpx) := by
  cases hdec : decode req with
  | ok i =>
    rw [transition_ok hdec] at h
    obtain ⟨hpx, hf, hop⟩ := perform_fault h
    exact ⟨hf, hpx, i, rfl, hop⟩
  | error e =>
    rw [transition_reserved hdec] at h
    cases h

theorem transition_ne_refused (layout : Layout) (px : Option Store) (req : BitVec 160) (f : Refusal) :
    transition layout px req ≠ .refused f := by
  cases hdec : decode req with
  | ok i =>
    rw [transition_ok hdec]
    exact perform_ne_refused layout px i f
  | error e =>
    rw [transition_reserved hdec]
    exact nofun

theorem transition_next_px {layout : Layout} {px px' : Option Store} {req : BitVec 160} {r : Response}
    (h : transition layout px req = .next (px', r)) (hne : ∀ index c, decode req ≠ .ok (.stpx index c)) : px' = px := by
  cases hdec : decode req with
  | ok i =>
    rw [transition_ok hdec] at h
    exact perform_next_px h (fun index c hi => hne index c (hi ▸ hdec))
  | error e =>
    rw [transition_reserved hdec] at h
    cases h
    rfl

/-! The reply inside the closed system -/

theorem answer_eq_next_iff {s t : State} {reply : Reply} :
    s.answer reply = .next t ↔ ∃ px r, reply = .next (px, r) ∧ t = (s.withStore px).respond r := by
  cases reply with
  | next p =>
    obtain ⟨px, r⟩ := p
    constructor
    · intro h
      exact ⟨px, r, rfl, (Host.Outcome.next.inj h).symm⟩
    · rintro ⟨_, _, ⟨⟩, rfl⟩
      rfl
  | fault f => simp
  | refused r => simp

theorem answer_eq_fault_iff {s : State} {reply : Reply} {f : Fault} :
    s.answer reply = .fault f ↔ reply = .fault f := by
  cases reply <;> simp [State.answer]

theorem answer_eq_refused_iff {s : State} {reply : Reply} {f : Refusal} :
    s.answer reply = .refused f ↔ reply = .refused f := by
  cases reply <;> simp [State.answer]

/-- A step on a waiting request is the unit's function, its reply handed out (rule R29). -/
theorem step_request_eq_answer {s : State} {req : BitVec 160} {rest : List Input}
    (h : s.inputs = .request req :: rest) :
    step s = State.answer { s with inputs := rest } (transition s.layout s.px req) := by
  rw [step_request h, serve_eq_answer]

theorem holderAct_ne_fault (access : HolderAccess) (s : State) (f : Fault) : holderAct access s ≠ .fault f := by
  unfold holderAct
  repeat' split
  all_goals exact nofun

theorem construct_ne_fault (form : ResetForm) (s : State) (f : Fault) : construct form s ≠ .fault f := by
  unfold construct
  repeat' split
  all_goals exact nofun

theorem memRead_eq_none {st : Store} {addr n : Nat} (h : st.memRead addr n = none) : st.size < addr + n := by
  unfold Store.memRead Store.storeSize at h
  split at h
  · cases h
  · omega

theorem memWrite_eq_none {st : Store} {addr : Nat} {bs : List Byte} (h : st.memWrite addr bs = none) :
    st.size < addr + bs.length := by
  unfold Store.memWrite Store.storeSize at h
  split at h
  · cases h
  · omega

/-- Why an external-holder input is refused (log entry 9). -/
theorem holderAct_refused_cases {access : HolderAccess} {s : State} {r : Refusal} (h : holderAct access s = .refused r) :
    s.storeOwned = false ∧
    ((r = .holderOutsideStore ∧ s.px = none) ∨
     (∃ st, s.px = some st ∧
      ((r = .holderOutsideStore ∧ ∃ addr, st.size ≤ addr ∧
          (access = .readByte addr ∨ ∃ value, access = .writeByte addr value)) ∨
       (r = .storeTooLarge ∧ ∃ contents, access = .rewrite contents ∧ Config.maxStoreSize < contents.length)))) := by
  unfold holderAct at h
  split at h
  · cases h
  · next howned =>
    refine ⟨by simpa using howned, ?_⟩
    split at h
    · next hpx =>
      cases h
      exact .inl ⟨rfl, hpx⟩
    · next st hpx =>
      refine .inr ⟨st, hpx, ?_⟩
      cases access with
      | readByte addr =>
        simp only at h
        split at h
        · cases h
        · next hnone =>
          cases h
          exact .inl ⟨rfl, addr, Nat.le_of_lt_succ (memRead_eq_none hnone), .inl rfl⟩
      | writeByte addr value =>
        simp only at h
        split at h
        · cases h
        · next hnone =>
          cases h
          exact .inl ⟨rfl, addr, Nat.le_of_lt_succ (memWrite_eq_none hnone), .inr ⟨value, rfl⟩⟩
      | rewrite contents =>
        simp only at h
        split at h
        · cases h
        · next hlarge =>
          cases h
          exact .inr ⟨rfl, contents, rfl, by omega⟩
      | free => cases h

/-- Why a reset is refused (log entry 13). -/
theorem construct_refused_cases {form : ResetForm} {s : State} {r : Refusal} (h : construct form s = .refused r) :
    r = .storeTooLarge ∧
    ((∃ layout n, form = .allocate layout n ∧ Config.maxStoreSize < n * layout.stride) ∨
     (∃ layout contents, form = .wrap layout contents ∧ Config.maxStoreSize < contents.length)) := by
  unfold construct at h
  cases form with
  | allocate layout n =>
    simp only at h
    split at h
    · cases h
    · next hlarge =>
      cases h
      exact ⟨rfl, .inl ⟨layout, n, rfl, by omega⟩⟩
  | wrap layout contents =>
    simp only at h
    split at h
    · cases h
    · next hlarge =>
      cases h
      exact ⟨rfl, .inr ⟨layout, contents, rfl, by omega⟩⟩

/-! The invariant -/

theorem inv_respond {s : State} {r : Response} (h : s.Inv) (hr : ¬ (r.oob = true ∧ r.ill = true)) :
    (s.respond r).Inv := by
  obtain ⟨hstore, howned, hresp⟩ := h
  exact ⟨hstore, howned, List.forall_mem_cons.2 ⟨hr, hresp⟩⟩

/-- A well-formed store of the same size may take the place of the attached one. -/
theorem inv_withStore_same_size {s : State} {st st' : Store} (h : s.Inv) (hpx : s.px = some st) (hwf : st'.wf)
    (hsize : st'.size = st.size) : (s.withStore (some st')).Inv := by
  obtain ⟨-, howned, hresp⟩ := h
  refine ⟨fun _ hmem => Option.some.inj hmem ▸ hwf, fun ho => ?_, hresp⟩
  obtain ⟨st₀, hmem, hpixels⟩ := howned ho
  obtain rfl : st₀ = st := Option.some.inj (hmem.symm.trans hpx)
  exact ⟨st', rfl, hsize ▸ hpixels⟩

/-- Any well-formed store, or none, may take the place of one that is not owned. -/
theorem inv_withStore_not_owned {s : State} {px : Option Store} (h : s.Inv) (ho : s.storeOwned = false)
    (hwf : ∀ st ∈ px, st.wf) : (s.withStore px).Inv := by
  obtain ⟨-, -, hresp⟩ := h
  exact ⟨hwf, fun howned => absurd (ho.symm.trans howned) Bool.false_ne_true, hresp⟩

theorem allocated_inv {layout : Layout} {n : Nat} (h : n * layout.stride ≤ Config.maxStoreSize) :
    (State.allocated layout n).Inv := by
  refine ⟨?_, fun _ => ⟨_, rfl, Nat.mul_mod_left _ _⟩, fun _ hmem => absurd hmem List.not_mem_nil⟩
  rintro st ⟨⟩
  exact ⟨Memory.nil_wf, fun _ hmem => absurd hmem List.not_mem_nil, h⟩

theorem exec_keeps_inv {i : Instr} {s t : State} (h : s.Inv) (he : exec i s = .next t) : t.Inv := by
  rcases exec_next_cases he with ⟨r, hill, rfl⟩ | ⟨index, c, st, st', -, hpx, -, -, hw, rfl⟩
  · exact inv_respond h (by simp [hill])
  · have hwf : st.wf := h.1 st hpx
    exact inv_respond (inv_withStore_same_size h hpx (Store.memWrite_wf hw hwf) (Store.memWrite_size hw)) (by simp)

theorem serve_keeps_inv {req : BitVec 160} {s t : State} (h : s.Inv) (he : serve req s = .next t) : t.Inv := by
  cases hdec : decode req with
  | ok i => exact exec_keeps_inv h ((serve_ok hdec s).symm.trans he)
  | error e =>
    cases (serve_reserved hdec s).symm.trans he
    exact inv_respond h (by simp)

theorem holderAct_keeps_inv {access : HolderAccess} {s t : State} (h : s.Inv) (he : holderAct access s = .next t) :
    t.Inv := by
  rcases holderAct_next_cases he with rfl | ⟨ho, st, hpx, hact⟩
  · exact h
  · rcases hact with ⟨addr, value, st', -, hw, rfl⟩ | ⟨contents, -, hlen, rfl⟩ | ⟨-, rfl⟩
    · have hwf : st.wf := h.1 st hpx
      exact inv_withStore_same_size h hpx (Store.memWrite_wf hw hwf) (Store.memWrite_size hw)
    · exact inv_withStore_not_owned h ho (fun _ hmem => Option.some.inj hmem ▸ Store.ofContents_wf hlen)
    · exact inv_withStore_not_owned h ho nofun

theorem construct_keeps_inv {form : ResetForm} {s t : State} (h : s.Inv) (he : construct form s = .next t) : t.Inv := by
  obtain ⟨-, -, hresp⟩ := h
  rcases construct_next_cases he with ⟨layout, n, -, hle, rfl⟩ | ⟨layout, contents, -, hlen, rfl⟩
  · obtain ⟨hstore, howned, -⟩ := allocated_inv hle
    exact ⟨hstore, howned, hresp⟩
  · exact ⟨fun _ hmem => Option.some.inj hmem ▸ Store.ofContents_wf hlen, nofun, hresp⟩

/-- Taking an input leaves the invariant, which does not speak of inputs. -/
theorem inv_withInputs {s : State} (h : s.Inv) (rest : List Input) : State.Inv { s with inputs := rest } := h

theorem step_keeps_inv {s t : State} (h : s.Inv) (he : step s = .next t) : t.Inv := by
  cases hin : s.inputs with
  | nil => exact Host.Outcome.next.inj ((step_idle hin).symm.trans he) ▸ h
  | cons input rest =>
    cases input with
    | request req => exact serve_keeps_inv (inv_withInputs h rest) ((step_request hin).symm.trans he)
    | holder access => exact holderAct_keeps_inv (inv_withInputs h rest) ((step_holder hin).symm.trans he)
    | reset form => exact construct_keeps_inv (inv_withInputs h rest) ((step_reset hin).symm.trans he)

/-! Runs of requests -/

/-- While a store is attached, as many steps as requests run the unit's function over them (rule R149). -/
theorem run_requests (reqs : List (BitVec 160)) {s : State} {st : Store} (hpx : s.px = some st)
    (hin : s.inputs = reqs.map .request) :
    ∃ st' rs, transitions s.layout s.px reqs = .next (some st', rs) ∧ rs.length = reqs.length ∧ st'.size = st.size ∧
      core.run reqs.length s =
        .next { s with px := some st', inputs := [], responses := rs.reverse ++ s.responses } := by
  induction reqs generalizing s st with
  | nil =>
    refine ⟨st, [], by rw [hpx]; rfl, rfl, rfl, ?_⟩
    have hs : s = { s with px := some st, inputs := [] } := by
      rw [← hpx, ← (show s.inputs = [] from hin)]
    exact congrArg Host.Outcome.next hs
  | cons req reqs ih =>
    obtain ⟨st₁, r, htrans, -, hsize₁⟩ := transition_attached s.layout st req
    have hstep : step s = .next { s with px := some st₁, inputs := reqs.map .request, responses := r :: s.responses } := by
      rw [step_request_eq_answer hin, hpx, htrans]
      rfl
    obtain ⟨st', rs, htranss, hlen, hsize, hrun⟩ :=
      ih (s := { s with px := some st₁, inputs := reqs.map .request, responses := r :: s.responses }) rfl rfl
    refine ⟨st', r :: rs, ?_, by simp [hlen], hsize.trans hsize₁, ?_⟩
    · simp only at htranss
      simp only [transitions, hpx, htrans, htranss]
    · have hrun' : core.run (reqs.length + 1) s = core.run reqs.length
          { s with px := some st₁, inputs := reqs.map .request, responses := r :: s.responses } := by
        simp only [Host.Core.run, show core.step s = _ from hstep]
      rw [List.length_cons, hrun', hrun]
      simp

/-! The obligations -/

/-- Settles O47: a step answers a request, an external-holder input or a reset, and each keeps the invariant. -/
theorem stepKeepsInvariant : Obligations.StepKeepsInvariant := fun _ _ hinv hstep => step_keeps_inv hinv hstep

/-- Settles O46: the state after reset is an allocated one. -/
theorem invariantHoldsAtReset : Obligations.InvariantHoldsAtReset := allocated_inv (by decide)

/-- Settles O51: a step hands the layout and the store to the unit's function, which gives back the store but for `STPX`. -/
theorem stepIsTransition : Obligations.StepIsTransition := by
  refine ⟨fun s req rest hin => ⟨?_, ?_, transition_ne_refused s.layout s.px req⟩, ?_⟩
  · intro px r htrans
    rw [step_request_eq_answer hin, htrans]
    rfl
  · intro f htrans
    rw [step_request_eq_answer hin, htrans]
    rfl
  · intro layout px px' req r hne htrans
    exact transition_next_px htrans hne

/-- Settles O23: the ten operations reply with one response whatever layout and store they meet. -/
theorem colourOperationsIgnoreState : Obligations.ColourOperationsIgnoreState := by
  intro i hl hs
  obtain ⟨r, hill, hr⟩ := perform_storeless hl hs
  refine ⟨r, hill, fun s => ?_⟩
  rw [exec_eq_answer, hr]
  rfl

/-- Settles O24: the unit's reply reads the layout and the store alone. -/
theorem ownershipChangesNoResult : Obligations.OwnershipChangesNoResult := by
  intro i s owned
  rw [exec_eq_answer, exec_eq_answer]
  cases perform s.layout s.px i <;> rfl

/-- Settles O25: an instruction adds a response, and only `STPX` stores, through a port that keeps the size. -/
theorem onlyStpxChangesTheStore : Obligations.OnlyStpxChangesTheStore := by
  intro i s t hexec
  rcases exec_next_cases hexec with ⟨r, -, rfl⟩ | ⟨index, c, st, st', rfl, hpx, -, -, hw, rfl⟩
  · exact ⟨rfl, rfl, rfl, fun hne => absurd rfl hne⟩
  · exact ⟨rfl, rfl, by simp [hpx, Store.memWrite_size hw], fun _ => ⟨index, c, rfl⟩⟩

/-- Settles O26: with a store attached every instruction has a reply, and without one only the pixel accesses have none. -/
theorem instructionsStopOnlyWithoutStore : Obligations.InstructionsStopOnlyWithoutStore := by
  refine ⟨fun index c s hpx => ⟨execLdpx_none index hpx, execStpx_none index c hpx⟩, fun i s f hexec => ?_,
    fun i s r hexec => ?_⟩
  · rw [exec_eq_answer] at hexec
    exact perform_fault (answer_eq_fault_iff.1 hexec)
  · rw [exec_eq_answer] at hexec
    exact perform_ne_refused _ _ _ _ (answer_eq_refused_iff.1 hexec)

/-- Settles O18: without `STPX` an instruction only adds a response. -/
theorem storelessFrame : Obligations.StorelessFrame := by
  intro i s t hop hexec
  rcases exec_next_cases hexec with ⟨r, -, rfl⟩ | ⟨index, c, st, st', rfl, -⟩
  · exact ⟨fun _ => rfl, rfl, rfl, rfl, rfl, r, rfl⟩
  · exact absurd rfl hop

/-- Settles O34: the request is decoded and its instruction run, and `withFetchWord` places the request that `decodeTableWord`
reads. -/
theorem stepRunsDecodedInstruction : Obligations.StepRunsDecodedInstruction := by
  refine ⟨fun s req rest i hin hdec => ?_, fun s nbits w i htable => ?_⟩
  · rw [step_request hin, serve_ok hdec]
  · have hdec : decode (BitVec.ofNat 160 (w % 2 ^ nbits)) = .ok i := by
      unfold decodeTableWord at htable
      split at htable
      · next hok => rw [hok, Option.some.inj htable]
      · cases htable
    exact (step_request rfl).trans (serve_ok hdec s)

theorem ask_eq_exec {i : Instr} (h : i.wf = true) (s : State) : ask i s = exec i s := by
  rw [ask, step_request rfl, serve_ok (decode_encode h)]

/-- Settles O35: the request of a well-formed instruction decodes to it. -/
theorem askRunsTheInstruction : Obligations.AskRunsTheInstruction := fun _ s hwf => ask_eq_exec hwf s

/-- Settles O36: a request that the decoder rejects is given the reserved answer. -/
theorem reservedRequestIsAnsweredIll : Obligations.ReservedRequestIsAnsweredIll := by
  intro s req rest e hin hdec
  rw [step_request hin, serve_reserved hdec]
  rfl

/-- Settles O37: without an input the step idles. -/
theorem nothingHappensBetweenRequests : Obligations.NothingHappensBetweenRequests := fun _ hin => step_idle hin

/-- Settles O42: requests and external-holder inputs keep the configuration, the latter an owned store too, and a request changes
the store only by `STPX`. -/
theorem ownedStoreChangesOnlyByStpxOrReset : Obligations.OwnedStoreChangesOnlyByStpxOrReset := by
  intro s t hstep
  cases hin : s.inputs with
  | nil =>
    obtain rfl := Host.Outcome.next.inj ((step_idle hin).symm.trans hstep)
    exact ⟨by simp, by simp⟩
  | cons input rest =>
    cases input with
    | request req =>
      obtain ⟨px, r, htrans, rfl⟩ := answer_eq_next_iff.1 ((step_request_eq_answer hin).symm.trans hstep)
      refine ⟨by simp, fun _ hne => .inr ?_⟩
      by_contra hstpx
      refine hne (transition_next_px htrans fun index c hdec => hstpx ⟨req, rest, index, c, rfl, hdec⟩)
    | holder access =>
      rcases holderAct_next_cases ((step_holder hin).symm.trans hstep) with rfl | ⟨hnot, st, -, hact⟩
      · exact ⟨by simp, by simp⟩
      · have hkept : t.layout = s.layout ∧ t.storeOwned = s.storeOwned := by
          rcases hact with ⟨-, -, -, -, -, rfl⟩ | ⟨-, -, -, rfl⟩ | ⟨-, rfl⟩ <;> exact ⟨rfl, rfl⟩
        exact ⟨by simp [hkept], fun howned => absurd (hnot.symm.trans howned) Bool.false_ne_true⟩
    | reset form => exact ⟨fun _ => ⟨form, rest, rfl⟩, fun _ _ => .inl ⟨form, rest, rfl⟩⟩

/-- Settles O43: the unit's function replies to every request on an attached store, and without one to all that access no pixel. -/
theorem everyRequestGetsOneResponse : Obligations.EveryRequestGetsOneResponse := by
  intro s req rest hin hpremise
  have hreply : ∃ px r, transition s.layout s.px req = .next (px, r) ∧ ¬ (r.oob = true ∧ r.ill = true) ∧
      px.map (·.size) = s.px.map (·.size) := by
    cases hpx : s.px with
    | some st =>
      obtain ⟨st', r, htrans, hr, hsize⟩ := transition_attached s.layout st req
      exact ⟨some st', r, htrans, hr, by simp [hsize]⟩
    | none =>
      cases hdec : decode req with
      | ok i =>
        obtain ⟨hl, hs⟩ := hpremise.resolve_left (not_not_intro hpx) i hdec
        obtain ⟨r, hill, hr⟩ := perform_storeless hl hs
        exact ⟨none, r, (transition_ok hdec ..).trans (hr ..), by simp [hill], rfl⟩
      | error e => exact ⟨none, _, transition_reserved hdec .., by simp, rfl⟩
  obtain ⟨px, r, htrans, hr, hsize⟩ := hreply
  refine ⟨(State.withStore { s with inputs := rest } px).respond r, r, ?_, rfl, rfl, hr, hsize⟩
  rw [step_request_eq_answer hin, htrans, State.answer_next]

/-- Settles O44, by induction on the requests: each is one step and leaves a store attached for the next. -/
theorem everyRunOfRequestsIsAnswered : Obligations.EveryRunOfRequestsIsAnswered := by
  intro reqs s hattached hin
  obtain ⟨st, hpx⟩ := Option.ne_none_iff_exists'.1 hattached
  obtain ⟨st', rs, htrans, hlen, hsize, hrun⟩ := run_requests reqs hpx hin
  exact ⟨some st', rs, htrans, hlen, by simp [hpx, hsize], hrun⟩

/-- Settles O45: only a request can fault, and only an external-holder input or a reset can be refused. -/
theorem stepStopsOnlyOutsideThePremises : Obligations.StepStopsOnlyOutsideThePremises := by
  intro s
  cases hin : s.inputs with
  | nil => simp [step_idle hin]
  | cons input rest =>
    cases input with
    | request req =>
      rw [step_request_eq_answer hin]
      refine ⟨fun f hstop => ?_, fun r hstop => absurd (answer_eq_refused_iff.1 hstop) (transition_ne_refused _ _ _ _)⟩
      obtain ⟨hf, hpx, i, hdec, hop⟩ := transition_fault (answer_eq_fault_iff.1 hstop)
      exact ⟨hf, hpx, req, rest, i, rfl, hdec, hop⟩
    | holder access =>
      rw [step_holder hin]
      refine ⟨fun f hstop => absurd hstop (holderAct_ne_fault _ _ _), fun r hstop => ?_⟩
      obtain ⟨howned, ⟨rfl, hpx⟩ | ⟨st, hpx, ⟨rfl, addr, hle, hacc⟩ | ⟨rfl, contents, rfl, hlarge⟩⟩⟩ :=
        holderAct_refused_cases hstop
      · exact .inl ⟨rfl, howned, access, rest, rfl, .inl hpx⟩
      · exact .inl ⟨rfl, howned, access, rest, rfl, .inr ⟨st, addr, hpx, hle, hacc⟩⟩
      · exact .inr ⟨rfl, .inl ⟨contents, rest, rfl, howned, Option.ne_none_iff_exists'.2 ⟨st, hpx⟩, hlarge⟩⟩
    | reset form =>
      rw [step_reset hin]
      refine ⟨fun f hstop => absurd hstop (construct_ne_fault _ _ _), fun r hstop => ?_⟩
      obtain ⟨rfl, ⟨layout, n, rfl, hlarge⟩ | ⟨layout, contents, rfl, hlarge⟩⟩ := construct_refused_cases hstop
      · exact .inr ⟨rfl, .inr (.inl ⟨layout, n, rest, rfl, hlarge⟩)⟩
      · exact .inr ⟨rfl, .inr (.inr ⟨layout, contents, rest, rfl, hlarge⟩)⟩

end Sys2Proof.Machine
end

section
/-! PROOFS. Pixel access (42_pixel_access.md, 20_memory.md): the bytes of a pixel and its colour, what `STPX` leaves at every
address, what `LDPX` reads, and with that the range check, the frame, the round trip and the trailing bytes. -/

namespace Sys2Proof.Machine

/-! A pixel's bytes and its colour (rule R41) -/

theorem toNat_append_byte {n : Nat} (x : BitVec n) (b : Byte) : (x ++ b).toNat = x.toNat * 256 + b.toNat := by
  rw [BitVec.toNat_append, ← Nat.shiftLeft_add_eq_or_of_lt b.isLt, Nat.shiftLeft_eq]

theorem colourOfBytes_three (b0 b1 b2 : Byte) : colourOfBytes [b0, b1, b2] = 0#8 ++ b0 ++ b1 ++ b2 := by
  have h0 := b0.isLt
  have h1 := b1.isLt
  have h2 := b2.isLt
  apply BitVec.eq_of_toNat_eq
  simp only [colourOfBytes, List.foldl, toNat_append_byte]
  rw [toNat_word_of_lt (by omega)]
  simp

theorem colourOfBytes_four (b0 b1 b2 b3 : Byte) : colourOfBytes [b0, b1, b2, b3] = b0 ++ b1 ++ b2 ++ b3 := by
  have h0 := b0.isLt
  have h1 := b1.isLt
  have h2 := b2.isLt
  have h3 := b3.isLt
  apply BitVec.eq_of_toNat_eq
  simp only [colourOfBytes, List.foldl, toNat_append_byte]
  rw [toNat_word_of_lt (by omega)]
  omega

theorem chByte_eq_extractLsb' (c : Word) (k : Nat) : chByte c k = c.extractLsb' (8 * k) 8 := by
  rw [chByte, ch_eq_toNat_extractLsb', BitVec.ofNat_toNat, BitVec.setWidth_eq]

theorem toNat_chByte (c : Word) (k : Nat) : (chByte c k).toNat = ch c k := by
  rw [chByte_eq_extractLsb', ch_eq_toNat_extractLsb']

/-- The bits of a colour that a pixel of the layout keeps: all under `ARGB`, the low 24 under `RGB` (rule R112). -/
def keptColour (layout : Layout) (c : Word) : Word :=
  match layout with
  | .rgb => c &&& 0x00FFFFFF#32
  | .argb => c

theorem colourOfBytes_pixelBytes (layout : Layout) (c : Word) : colourOfBytes (pixelBytes layout c) = keptColour layout c := by
  have hc := toNat_eq_channels c
  have h2 := ch_lt c 2
  have h1 := ch_lt c 1
  have h0 := ch_lt c 0
  apply BitVec.eq_of_toNat_eq
  cases layout with
  | rgb =>
    rw [pixelBytes, colourOfBytes_three, keptColour, BitVec.toNat_and]
    simp only [toNat_append_byte, toNat_chByte]
    rw [show (0x00FFFFFF#32).toNat = 2 ^ 24 - 1 from rfl, Nat.and_two_pow_sub_one_eq_mod]
    simp
    omega
  | argb =>
    rw [pixelBytes, colourOfBytes_four, keptColour]
    simp only [toNat_append_byte, toNat_chByte]
    omega

/-! Where a pixel lies -/

/-- The length is told by the size (rule R25). -/
theorem length_congr {st st' : Store} (layout : Layout) (hsize : st'.size = st.size) :
    st'.length layout = st.length layout := congrArg (· / layout.stride) hsize

theorem sint_inRange {layout : Layout} {st : Store} {index : Word} {i : Nat} (hi : sint index = i)
    (h : i < st.length layout) : 0 ≤ sint index ∧ sint index < st.length layout := by
  omega

/-- A pixel in range ends before the bytes that belong to none (20_memory.md section 5). -/
theorem pixelAddr_add_stride_le {layout : Layout} {st : Store} {index : Word} (h0 : 0 ≤ sint index)
    (h1 : sint index < st.length layout) :
    pixelAddr layout (sint index).toNat + layout.stride ≤ st.length layout * layout.stride := by
  have hmul := Nat.mul_le_mul_right layout.stride (show (sint index).toNat + 1 ≤ st.length layout by omega)
  rwa [Nat.add_mul, Nat.one_mul] at hmul

/-- The pixels of two different indexes share no byte (rule R42). -/
theorem pixelAddr_disjoint {layout : Layout} {i j k : Nat} (hij : j ≠ i) (hk : k < layout.stride) :
    pixelAddr layout j + k < pixelAddr layout i ∨ pixelAddr layout i + layout.stride ≤ pixelAddr layout j + k := by
  cases layout <;> simp only [pixelAddr, Layout.stride] at hk ⊢ <;> omega

/-! The store after `STPX`, byte by byte -/

theorem byteAt_of_lt {st : Store} {addr : Nat} (h : addr < st.size) : st.byteAt addr = some (st.bytes.read addr) :=
  if_pos h

theorem stpxStore_outside {layout : Layout} {st : Store} {index : Word}
    (h : ¬ (0 ≤ sint index ∧ sint index < st.length layout)) (c : Word) : stpxStore layout st index c = st := if_neg h

theorem memWrite_stpxStore {layout : Layout} {st : Store} {index : Word} (h0 : 0 ≤ sint index)
    (h1 : sint index < st.length layout) (c : Word) :
    st.memWrite (pixelAddr layout (sint index).toNat) (pixelBytes layout c) = some (stpxStore layout st index c) := by
  obtain ⟨st', hw, -⟩ := stpxReply_inside c h0 h1
  rw [hw, (Store.memWrite_some hw).2, stpxStore, if_pos ⟨h0, h1⟩]

/-- In range, the pixel's bytes are those of the colour and every other byte is as before (rule R111). -/
theorem byteAt_stpxStore_inside {layout : Layout} {st : Store} {index : Word} (hwf : st.wf) (h0 : 0 ≤ sint index)
    (h1 : sint index < st.length layout) (c : Word) (k : Nat) :
    (stpxStore layout st index c).byteAt k =
      if pixelAddr layout (sint index).toNat ≤ k ∧ k < pixelAddr layout (sint index).toNat + layout.stride then
        some ((pixelBytes layout c).getD (k - pixelAddr layout (sint index).toNat) 0#8)
      else st.byteAt k := by
  rw [Store.byteAt_memWrite (memWrite_stpxStore h0 h1 c) hwf.1, pixelBytes_length]

/-- In range or not, no byte outside the pixel changes (rule R111). -/
theorem byteAt_stpxStore_of_outside_pixel {layout : Layout} {st : Store} {index c : Word} {k : Nat} (hwf : st.wf)
    (hk : k < pixelAddr layout (sint index).toNat ∨ pixelAddr layout (sint index).toNat + layout.stride ≤ k) :
    (stpxStore layout st index c).byteAt k = st.byteAt k := by
  by_cases hr : 0 ≤ sint index ∧ sint index < st.length layout
  · rw [byteAt_stpxStore_inside hwf hr.1 hr.2, if_neg (by omega)]
  · rw [stpxStore_outside hr]

theorem stpxStore_wf {layout : Layout} {st : Store} (hwf : st.wf) (index c : Word) : (stpxStore layout st index c).wf := by
  by_cases hr : 0 ≤ sint index ∧ sint index < st.length layout
  · exact Store.memWrite_wf (memWrite_stpxStore hr.1 hr.2 c) hwf
  · rwa [stpxStore_outside hr]

/-- The bytes at and past `length * stride` belong to no pixel (20_memory.md section 5). -/
theorem byteAt_stpxStore_trailing {layout : Layout} {st : Store} {k : Nat} (hwf : st.wf)
    (hk : st.length layout * layout.stride ≤ k) (index c : Word) :
    (stpxStore layout st index c).byteAt k = st.byteAt k := by
  by_cases hr : 0 ≤ sint index ∧ sint index < st.length layout
  · exact byteAt_stpxStore_of_outside_pixel hwf (.inr ((pixelAddr_add_stride_le hr.1 hr.2).trans hk))
  · rw [stpxStore_outside hr]

/-- `STPX` keeps two stores of one length in agreement at an address (rule R111). -/
theorem byteAt_stpxStore_congr {layout : Layout} {st st' : Store} {k : Nat} (hwf : st.wf) (hwf' : st'.wf)
    (hsize : st'.size = st.size) (hk : st'.byteAt k = st.byteAt k) (index c : Word) :
    (stpxStore layout st' index c).byteAt k = (stpxStore layout st index c).byteAt k := by
  have hlen := length_congr layout hsize
  by_cases hr : 0 ≤ sint index ∧ sint index < st.length layout
  · rw [byteAt_stpxStore_inside hwf hr.1 hr.2, byteAt_stpxStore_inside hwf' hr.1 (hlen ▸ hr.2), hk]
  · rw [stpxStore_outside hr, stpxStore_outside (hlen ▸ hr), hk]

/-- The bytes that an in-range `STPX` writes under `RGB`, and its frame (rule R111). -/
theorem byteAt_stpxStore_rgb {st : Store} {index : Word} {i : Nat} (hwf : st.wf) (hi : sint index = i)
    (h : i < st.size / 3) (c : Word) :
    (stpxStore .rgb st index c).byteAt (i * 3) = some (c.extractLsb' 16 8) ∧
    (stpxStore .rgb st index c).byteAt (i * 3 + 1) = some (c.extractLsb' 8 8) ∧
    (stpxStore .rgb st index c).byteAt (i * 3 + 2) = some (c.extractLsb' 0 8) ∧
    ∀ k, k < i * 3 ∨ i * 3 + 3 ≤ k → (stpxStore .rgb st index c).byteAt k = st.byteAt k := by
  obtain ⟨h0, h1⟩ := sint_inRange (layout := .rgb) hi h
  simp only [byteAt_stpxStore_inside hwf h0 h1, hi, pixelAddr, Layout.stride, Int.toNat_natCast, pixelBytes,
    chByte_eq_extractLsb']
  refine ⟨by simp, by simp, by simp, fun k hk => if_neg (by omega)⟩

/-- The bytes that an in-range `STPX` writes under `ARGB`, and its frame (rule R111). -/
theorem byteAt_stpxStore_argb {st : Store} {index : Word} {i : Nat} (hwf : st.wf) (hi : sint index = i)
    (h : i < st.size / 4) (c : Word) :
    (stpxStore .argb st index c).byteAt (i * 4) = some (c.extractLsb' 24 8) ∧
    (stpxStore .argb st index c).byteAt (i * 4 + 1) = some (c.extractLsb' 16 8) ∧
    (stpxStore .argb st index c).byteAt (i * 4 + 2) = some (c.extractLsb' 8 8) ∧
    (stpxStore .argb st index c).byteAt (i * 4 + 3) = some (c.extractLsb' 0 8) ∧
    ∀ k, k < i * 4 ∨ i * 4 + 4 ≤ k → (stpxStore .argb st index c).byteAt k = st.byteAt k := by
  obtain ⟨h0, h1⟩ := sint_inRange (layout := .argb) hi h
  simp only [byteAt_stpxStore_inside hwf h0 h1, hi, pixelAddr, Layout.stride, Int.toNat_natCast, pixelBytes,
    chByte_eq_extractLsb']
  refine ⟨by simp, by simp, by simp, by simp, fun k hk => if_neg (by omega)⟩

/-! What `LDPX` reads -/

theorem ldpxResponse_inside {layout : Layout} {st : Store} {index : Word} (h0 : 0 ≤ sint index)
    (h1 : sint index < st.length layout) :
    ldpxResponse layout st index = pixelRead
      ((List.range layout.stride).map fun k => st.bytes.read (pixelAddr layout (sint index).toNat + k)) :=
  if_pos ⟨h0, h1⟩

theorem ldpxResponse_outside {layout : Layout} {st : Store} {index : Word}
    (h : ¬ (0 ≤ sint index ∧ sint index < st.length layout)) : ldpxResponse layout st index = .outOfRange sentinel :=
  if_neg h

/-- `LDPX` reads the size and the bytes of its own pixel, and nothing else of the store (rule R110). -/
theorem ldpxResponse_congr {layout : Layout} {st st' : Store} {index : Word} (hsize : st'.size = st.size)
    (hbytes : 0 ≤ sint index → sint index < st.length layout → ∀ k < layout.stride,
      st'.byteAt (pixelAddr layout (sint index).toNat + k) = st.byteAt (pixelAddr layout (sint index).toNat + k)) :
    ldpxResponse layout st' index = ldpxResponse layout st index := by
  have hlen := length_congr layout hsize
  by_cases hr : 0 ≤ sint index ∧ sint index < st.length layout
  · rw [ldpxResponse_inside hr.1 hr.2, ldpxResponse_inside hr.1 (hlen ▸ hr.2)]
    congr 1
    refine List.map_congr_left fun k hk => ?_
    have hk : k < layout.stride := List.mem_range.1 hk
    have hin := Store.pixel_inside (st := st) (layout := layout) (i := (sint index).toNat) (by omega)
    have hbyte := hbytes hr.1 hr.2 k hk
    rw [byteAt_of_lt (by omega), byteAt_of_lt (by omega)] at hbyte
    exact Option.some.inj hbyte
  · rw [ldpxResponse_outside hr, ldpxResponse_outside (hlen ▸ hr)]

/-- A pixel just written in range reads as the colour, as far as the layout keeps it (rule R112). -/
theorem ldpxResponse_stpxStore_same {layout : Layout} {st : Store} {index : Word} (hwf : st.wf) (h0 : 0 ≤ sint index)
    (h1 : sint index < st.length layout) (c : Word) :
    ldpxResponse layout (stpxStore layout st index c) index = .done (keptColour layout c) := by
  have hlen := length_congr layout (stpxStore_size layout st index c)
  rw [ldpxResponse_inside h0 (hlen ▸ h1), (Store.memWrite_some (memWrite_stpxStore h0 h1 c)).2, pixelRead,
    ← pixelBytes_length layout c, Memory.map_read_writeBytes _ hwf.1, colourOfBytes_pixelBytes]

/-- A write to one pixel, in range or not, leaves what `LDPX` reads of any other (rule R112). -/
theorem ldpxResponse_stpxStore_other {layout : Layout} {st : Store} {index j : Word} (hwf : st.wf) (hne : j ≠ index)
    (c : Word) : ldpxResponse layout (stpxStore layout st index c) j = ldpxResponse layout st j := by
  by_cases hr : 0 ≤ sint index ∧ sint index < st.length layout
  · refine ldpxResponse_congr (stpxStore_size ..) fun hj _ k hk => ?_
    have hsint : sint j ≠ sint index := fun he => hne (BitVec.eq_of_toInt_eq he)
    exact byteAt_stpxStore_of_outside_pixel hwf (pixelAddr_disjoint (by omega) hk)
  · rw [stpxStore_outside hr]

/-! The responses as the statements write them -/

theorem answersWith_of_exec_respond {i : Instr} {s : State} {r : Response}
    (hexec : exec i s = .next (s.respond r)) (hill : r.ill = false) : AnswersWith i s r.y r.oob := by
  obtain ⟨y, oob, ill⟩ := r
  cases hill
  exact hexec

theorem ldpx_answersWith {s : State} {st : Store} {index : Word} {r : Response} (hs : s.px = some st)
    (hr : ldpxResponse s.layout st index = r) : AnswersWith (.ldpx index) s r.y r.oob :=
  hr ▸ answersWith_of_exec_respond (exec_ldpx_attached hs index) (ldpxResponse_ill ..)

/-- An in-range pixel of the layout `RGB` as its three bytes (rule R110). -/
theorem ldpxResponse_rgb {st : Store} {index : Word} {i : Nat} (hi : sint index = i) (h : i < st.size / 3) :
    ldpxResponse .rgb st index =
      .done (0#8 ++ st.bytes.read (i * 3) ++ st.bytes.read (i * 3 + 1) ++ st.bytes.read (i * 3 + 2)) := by
  obtain ⟨h0, h1⟩ := sint_inRange (layout := .rgb) hi h
  rw [ldpxResponse_inside h0 h1, hi]
  exact congrArg Response.done (colourOfBytes_three ..)

/-- An in-range pixel of the layout `ARGB` as its four bytes (rule R110). -/
theorem ldpxResponse_argb {st : Store} {index : Word} {i : Nat} (hi : sint index = i) (h : i < st.size / 4) :
    ldpxResponse .argb st index =
      .done (st.bytes.read (i * 4) ++ st.bytes.read (i * 4 + 1) ++ st.bytes.read (i * 4 + 2) ++
        st.bytes.read (i * 4 + 3)) := by
  obtain ⟨h0, h1⟩ := sint_inRange (layout := .argb) hi h
  rw [ldpxResponse_inside h0 h1, hi]
  exact congrArg Response.done (colourOfBytes_four ..)

/-! The obligations -/

/-- Settles O15: the port gives the bytes of an in-range pixel, the most significant channel first. -/
theorem ldpxReadsPixel : Obligations.LdpxReadsPixel := by
  intro a b c d s st i hs
  refine ⟨decode_reqBits (Laws.RowSelected.ldpx a) a b c d, fun hout => ?_, fun hi hlt hl => ?_, fun hi hlt hl => ?_⟩
  · refine ldpx_answersWith hs (ldpxResponse_outside fun ⟨h0, h1⟩ => ?_)
    exact hout.elim h0.not_gt h1.not_ge
  · have hread : ldpxResponse s.layout st a = _ := hl ▸ ldpxResponse_rgb hi hlt
    exact ⟨_, _, _, byteAt_of_lt (by omega), byteAt_of_lt (by omega), byteAt_of_lt (by omega), ldpx_answersWith hs hread⟩
  · have hread : ldpxResponse s.layout st a = _ := hl ▸ ldpxResponse_argb hi hlt
    exact ⟨_, _, _, _, byteAt_of_lt (by omega), byteAt_of_lt (by omega), byteAt_of_lt (by omega),
      byteAt_of_lt (by omega), ldpx_answersWith hs hread⟩

/-- Settles O16: an in-range write sets the pixel's bytes, and one out of range writes nothing. -/
theorem stpxWritesPixel : Obligations.StpxWritesPixel := by
  intro a b c d s st i hs hwf
  have hexec := exec_stpx_attached hs a b
  refine ⟨decode_reqBits (Laws.RowSelected.stpx a b) a b c d, fun hout => ?_, fun hi hlt hl => ?_, fun hi hlt hl => ?_⟩
  · have hr : ¬ (0 ≤ sint a ∧ sint a < st.length s.layout) := fun ⟨h0, h1⟩ => hout.elim h0.not_gt h1.not_ge
    rw [stpxStore_outside hr, State.withStore_self hs, stpxResponse, if_neg hr] at hexec
    exact hexec
  · obtain ⟨b0, b1, b2, hframe⟩ := byteAt_stpxStore_rgb hwf hi hlt b
    rw [hl, stpxResponse, if_pos (sint_inRange (layout := .rgb) hi hlt)] at hexec
    exact ⟨_, hexec, stpxStore_size .., b0, b1, b2, hframe⟩
  · obtain ⟨b0, b1, b2, b3, hframe⟩ := byteAt_stpxStore_argb hwf hi hlt b
    rw [hl, stpxResponse, if_pos (sint_inRange (layout := .argb) hi hlt)] at hexec
    exact ⟨_, hexec, stpxStore_size .., b0, b1, b2, b3, hframe⟩

/-- Settles O17: outside the pixel's bytes the store reads as before, everywhere if the index is out of range. -/
theorem stpxFrame : Obligations.StpxFrame := by
  intro index c s t st hs hwf hexec
  obtain rfl := Host.Outcome.next.inj ((exec_stpx_attached hs index c).symm.trans hexec)
  have hbyte (k : Nat) (h : (stpxStore s.layout st index c).byteAt k = st.byteAt k) :
      State.byteAt ((s.withStore (some (stpxStore s.layout st index c))).respond (stpxResponse s.layout st index)) k =
        s.byteAt k := by
    simpa [State.byteAt, hs] using h
  refine ⟨rfl, rfl, rfl, by simp, ⟨_, rfl⟩, ?_, fun hout k => hbyte k ?_⟩
  · rintro addr rfl k hk
    exact hbyte k (byteAt_stpxStore_of_outside_pixel hwf hk)
  · rw [stpxStore_outside]
    rw [← inRange_iff, hout]
    exact Bool.false_ne_true

/-- Settles O19: the bytes that `LDPX` puts together are those that `STPX` wrote. -/
theorem pixelRoundTrip : Obligations.PixelRoundTrip := by
  intro index c s st hs hwf h0 h1
  refine ⟨_, exec_stpx_attached hs index c, ?_⟩
  have hanswer := ldpx_answersWith (s := (s.withStore (some (stpxStore s.layout st index c))).respond
    (stpxResponse s.layout st index)) rfl (ldpxResponse_stpxStore_same hwf h0 h1 c)
  cases hl : s.layout <;> simpa only [hl, keptColour, Response.done_y, Response.done_oob] using hanswer

/-- Settles O20: the pixels of different indexes share no byte. -/
theorem stpxLeavesOtherPixels : Obligations.StpxLeavesOtherPixels := by
  intro index j c s t st hs hwf hne hexec
  obtain rfl := Host.Outcome.next.inj ((exec_stpx_attached hs index c).symm.trans hexec)
  exact ⟨_, _, ldpx_answersWith hs rfl, ldpx_answersWith rfl (ldpxResponse_stpxStore_other hwf hne c)⟩

/-- Settles O22: `LDPX` keeps the store, so the second reads what the first read. -/
theorem ldpxIsIdempotent : Obligations.LdpxIsIdempotent := by
  intro index s t hexec
  cases hs : s.px with
  | none => cases (execLdpx_none index hs).symm.trans hexec
  | some st =>
    obtain rfl := Host.Outcome.next.inj ((exec_ldpx_attached hs index).symm.trans hexec)
    exact ⟨_, _, ldpx_answersWith hs rfl, ldpx_answersWith hs rfl⟩

/-- Settles O21: no write reaches the trailing bytes, and `LDPX`, the one operation that reads the store, reads a pixel. -/
theorem trailingBytesNeverAccessed : Obligations.TrailingBytesNeverAccessed := by
  refine ⟨fun i s t st k hs hwf hk hexec => ?_, fun i s st st' hs hwf hwf' hsize hagree => ?_⟩
  · rcases ldpx_or_stpx_or_storeless i with ⟨index, rfl⟩ | ⟨index, c, rfl⟩ | ⟨hl, hst⟩
    · exact (storelessFrame (.ldpx index) s t nofun hexec).1 k
    · obtain rfl := Host.Outcome.next.inj ((exec_stpx_attached hs index c).symm.trans hexec)
      simpa [State.byteAt, hs] using byteAt_stpxStore_trailing hwf hk index c
    · exact (storelessFrame _ s t hst hexec).1 k
  · rcases ldpx_or_stpx_or_storeless i with ⟨index, rfl⟩ | ⟨index, c, rfl⟩ | ⟨hl, hst⟩
    · have hread : ldpxResponse s.layout st' index = ldpxResponse s.layout st index :=
        ldpxResponse_congr hsize fun h0 h1 k hk =>
          hagree _ (lt_of_lt_of_le (Nat.add_lt_add_left hk _) (pixelAddr_add_stride_le h0 h1))
      have hexec' := exec_ldpx_attached (s := { s with px := some st' }) rfl index
      refine ⟨_, _, _, exec_ldpx_attached hs index, hexec', rfl, congrArg (· :: s.responses) hread, ?_⟩
      simpa [State.byteAt, hs] using hagree
    · have hresp : stpxResponse s.layout st' index = stpxResponse s.layout st index := by
        simp only [stpxResponse, length_congr s.layout hsize]
      have hexec' := exec_stpx_attached (s := { s with px := some st' }) rfl index c
      refine ⟨_, _, _, exec_stpx_attached hs index c, hexec', rfl, congrArg (· :: s.responses) hresp, fun k hk => ?_⟩
      exact byteAt_stpxStore_congr hwf hwf' hsize (hagree k hk) index c
    · obtain ⟨r, -, hr⟩ := colourOperationsIgnoreState i hl hst
      refine ⟨_, _, r, hr s, hr _, rfl, rfl, ?_⟩
      simpa [State.byteAt, hs] using hagree

/-- The response that an instruction adds is the one of the unit's reply. -/
theorem response_of_perform {i : Instr} {s t : State} {px : Option Store} {r r' : Response}
    (hreply : perform s.layout s.px i = .next (px, r')) (hexec : exec i s = .next t)
    (hr : t.responses = r :: s.responses) : r = r' := by
  rw [exec_eq_answer, hreply, State.answer_next] at hexec
  obtain rfl := Host.Outcome.next.inj hexec
  exact (List.cons.inj hr).1.symm

theorem not_inRange_iff (i n : Int) : ¬ (0 ≤ i ∧ i < n) ↔ i < 0 ∨ n ≤ i := by omega

/-- Settles O27: the three operations with an index check it, and the nine others are done without one. -/
theorem oobExactlyWhenIndexOutOfRange : Obligations.OobExactlyWhenIndexOutOfRange := by
  intro i s t st r hs hexec hr
  have hunchecked (hg : i.op ≠ .grad) (hl : i.op ≠ .ldpx) (hst : i.op ≠ .stpx) : r.oob = false := by
    obtain ⟨y, hy⟩ := perform_unchecked hg hl hst
    rw [response_of_perform (hy ..) hexec hr, Response.done_oob]
  cases i with
  | grad start stop steps index =>
    rw [response_of_perform rfl hexec hr, gradResponse, gradSample_oob_iff]
    exact not_inRange_iff ..
  | ldpx index =>
    rw [response_of_perform (hs ▸ ldpxReply_attached s.layout st index) hexec hr, ldpxResponse_oob_iff]
    exact not_inRange_iff ..
  | stpx index c =>
    rw [response_of_perform (hs ▸ stpxReply_attached s.layout st index c) hexec hr, stpxResponse_oob_iff]
    exact not_inRange_iff ..
  | _ =>
    have hoob := hunchecked nofun nofun nofun
    simp [hoob]

end Sys2Proof.Machine
end

section
/-! PROOFS. The external holder (20_memory.md section 7) and construction (70_reset_and_hazards.md section 1): what each gives
where its premise holds. -/

namespace Sys2Proof.Machine

/-! The external holder -/

theorem holderAct_owned {s : State} (h : s.storeOwned = true) (access : HolderAccess) : holderAct access s = .next s :=
  if_pos h

section NotOwned

variable {s : State} {st : Store} (ho : s.storeOwned = false) (hs : s.px = some st)
include ho hs

theorem holderAct_readByte {addr : Nat} (h : addr < st.size) : holderAct (.readByte addr) s = .next s := by
  simp [holderAct, ho, hs, Store.memRead, Store.storeSize, h]

theorem holderAct_writeByte {addr : Nat} (h : addr < st.size) (value : Byte) :
    holderAct (.writeByte addr value) s =
      .next (s.withStore (some { st with bytes := st.bytes.write addr value })) := by
  simp [holderAct, ho, hs, Store.memWrite, Store.storeSize, Memory.writeBytes, h]

theorem holderAct_rewrite {contents : List Byte} (h : contents.length ≤ Config.maxStoreSize) :
    holderAct (.rewrite contents) s = .next (s.withStore (some (Store.ofContents contents))) := by
  simp [holderAct, ho, hs, h]

theorem holderAct_free : holderAct .free s = .next (s.withStore none) := by
  simp [holderAct, ho, hs]

end NotOwned

theorem byteAt_write {st : Store} {addr : Nat} (hwf : st.wf) (h : addr < st.size) (value : Byte) (k : Nat) :
    Store.byteAt { st with bytes := st.bytes.write addr value } k = if k = addr then some value else st.byteAt k := by
  unfold Store.byteAt
  simp only [Memory.read_write hwf.1]
  by_cases hk : k = addr
  · simp [hk, h]
  · simp [hk]

/-! Construction -/

theorem construct_allocate {layout : Layout} {n : Nat} (h : n * layout.stride ≤ Config.maxStoreSize) (s : State) :
    construct (.allocate layout n) s =
      .next { State.allocated layout n with inputs := s.inputs, responses := s.responses } := by
  rw [construct, if_pos h]

theorem construct_wrap {contents : List Byte} (h : contents.length ≤ Config.maxStoreSize) (layout : Layout) (s : State) :
    construct (.wrap layout contents) s =
      .next { s with px := some (Store.ofContents contents), layout := layout, storeOwned := false } := by
  rw [construct, if_pos h]

/-- A store without an entry holds 0 at each of its addresses (rule R28). -/
theorem byteAt_empty (size k : Nat) : Store.byteAt ⟨[], size⟩ k = if k < size then some 0#8 else none := rfl

/-- A pixel whose bytes are 0 is the word 0. -/
theorem ldpxResponse_empty {layout : Layout} {size : Nat} {index : Word} (h0 : 0 ≤ sint index)
    (h1 : sint index < Store.length ⟨[], size⟩ layout) : ldpxResponse layout ⟨[], size⟩ index = .done 0#32 := by
  have hzero : ((List.range layout.stride).map fun k =>
      Memory.read [] (pixelAddr layout (sint index).toNat + k)) = List.replicate layout.stride 0#8 := by
    simp [Memory.read]
  rw [ldpxResponse_inside h0 h1, hzero]
  cases layout <;> rfl

/-! The obligations -/

/-- Settles O38: each access of the holder acts on the attached store alone, and on none that is owned. -/
theorem holderActsOnAliasedStoreOnly : Obligations.HolderActsOnAliasedStoreOnly := by
  intro s access rest hin
  rw [step_holder hin]
  refine ⟨fun ho => holderAct_owned (s := { s with inputs := rest }) ho access, fun st ho hs hwf => ⟨?_, ?_, ?_, ?_⟩⟩
  · rintro addr rfl h
    exact holderAct_readByte (s := { s with inputs := rest }) ho hs h
  · rintro addr v rfl h
    exact ⟨_, holderAct_writeByte (s := { s with inputs := rest }) ho hs h v, rfl, byteAt_write hwf h v⟩
  · rintro contents rfl h
    exact ⟨_, holderAct_rewrite (s := { s with inputs := rest }) ho hs h, rfl, Store.byteAt_ofContents contents⟩
  · rintro rfl
    exact holderAct_free (s := { s with inputs := rest }) ho hs

/-- Settles O39: the allocated store has no entry, so its bytes and its pixels are 0. -/
theorem resetAllocatesZeroedStore : Obligations.ResetAllocatesZeroedStore := by
  intro s layout n rest hin hle
  have hlen : Store.length ⟨[], n * layout.stride⟩ layout = n := Nat.mul_div_cancel n layout.stride_pos
  refine ⟨_, ⟨[], n * layout.stride⟩, (step_reset hin).trans (construct_allocate hle _), rfl, rfl, rfl, rfl, rfl, rfl,
    hlen, byteAt_empty _, fun index h0 h1 => ?_⟩
  exact ldpx_answersWith rfl (ldpxResponse_empty h0 (hlen.symm ▸ h1))

/-- Settles O40: the attached store is made of the supplied bytes. -/
theorem resetWrapsSuppliedStore : Obligations.ResetWrapsSuppliedStore := by
  intro s layout contents rest hin hle
  exact ⟨_, Store.ofContents contents, (step_reset hin).trans (construct_wrap hle layout _), rfl, rfl, rfl, rfl, rfl, rfl,
    rfl, Store.byteAt_ofContents contents⟩

/-- Settles O41: the state after reset is an allocated one. -/
theorem resetStateIsZeroedAndOwned : Obligations.ResetStateIsZeroedAndOwned :=
  ⟨rfl, rfl, rfl, _, Config.resetLength, rfl, rfl, by decide, byteAt_empty _⟩

end Sys2Proof.Machine
end

section
/-! PROOFS. The written form of a request (30_encoding.md section 7): every assembled instruction is well-formed, and the
pseudo-instructions and the defaults of `HSV` expand as the section says. -/

namespace Sys2Proof.Machine

/-- A written `sat` or `val` whose default bit is set gives the word 0 (rule R67). -/
theorem hsvOperand_default {ys : List Word} {o : Option AsmOperand} {w : Word} (h : hsvOperand ys o = some (true, w)) :
    w = 0#32 := by
  unfold hsvOperand at h
  split at h
  · simp_all
  · simp_all
  · simp at h

theorem assembleHsv_wf {ys : List Word} {hue : AsmOperand} {sat val : Option AsmOperand} {i : Instr}
    (h : assembleHsv ys hue sat val = some i) : i.wf = true := by
  unfold assembleHsv at h
  split at h
  · next sd s vd v _ hsat hval =>
    cases h
    refine (wf_hsv_iff ..).2 ⟨?_, ?_⟩
    · rintro rfl
      exact hsvOperand_default hsat
    · rintro rfl
      exact hsvOperand_default hval
  · cases h

theorem assembleExpanded_wf {ys : List Word} {line : AsmLine} {i : Instr} (h : assembleExpanded ys line = some i) :
    i.wf = true := by
  unfold assembleExpanded at h
  split at h
  case h_1 | h_11 =>
    obtain ⟨_, -, _, -, _, -, rfl⟩ := by simpa only [Option.bind_eq_some_iff, Option.map_eq_some_iff] using h
    rfl
  case h_2 | h_12 =>
    obtain ⟨_, -, _, -, _, -, _, -, rfl⟩ := by simpa only [Option.bind_eq_some_iff, Option.map_eq_some_iff] using h
    rfl
  case h_10 | h_14 =>
    obtain ⟨_, -, _, -, rfl⟩ := by simpa only [Option.bind_eq_some_iff, Option.map_eq_some_iff] using h
    rfl
  case h_3 | h_4 | h_5 | h_6 | h_13 =>
    obtain ⟨_, -, rfl⟩ := by simpa only [Option.map_eq_some_iff] using h
    rfl
  case h_7 | h_8 | h_9 => exact assembleHsv_wf h
  case h_15 => cases h

/-- Whatever is assembled is well-formed (rule R68). -/
theorem assemble_wf {ys : List Word} {line : AsmLine} {i : Instr} (h : assemble ys line = some i) : i.wf = true := by
  obtain ⟨line', -, hline'⟩ := Option.bind_eq_some_iff.1 h
  exact assembleExpanded_wf hline'

/-! The defaults of `HSV` -/

@[simp] theorem hsvOperand_none (ys : List Word) : hsvOperand ys none = some (true, 0#32) := rfl

@[simp] theorem hsvOperand_dash (ys : List Word) : hsvOperand ys (some .dash) = some (true, 0#32) := rfl

theorem hsvOperand_of_value {ys : List Word} {o : AsmOperand} {w : Word} (h : o.value ys = some w) :
    hsvOperand ys (some o) = some (false, w) := by
  cases o with
  | dash => cases h
  | _ => simp only [hsvOperand, h, Option.map_some]

theorem assembleHsv_eq_some {ys : List Word} {hue : AsmOperand} {sat val : Option AsmOperand} {h s v : Word}
    {sd vd : Bool} (hh : hue.value ys = some h) (hs : hsvOperand ys sat = some (sd, s))
    (hv : hsvOperand ys val = some (vd, v)) : assembleHsv ys hue sat val = some (.hsv sd vd h s v) := by
  simp only [assembleHsv, hh, hs, hv]

/-! The obligations -/

/-- Settles O49: an assembled instruction has 0 in the words it ignores. -/
theorem assembledRequestsDecode : Obligations.AssembledRequestsDecode := fun _ _ _ hasm =>
  ⟨assemble_wf hasm, decode_encode (assemble_wf hasm)⟩

/-- Settles O48: the pseudo-instructions expand before they are assembled, and a default sets its bit in the command word. -/
theorem pseudoInstructionsAreAliases : Obligations.PseudoInstructionsAreAliases := by
  refine ⟨fun ys ops => ⟨rfl, rfl, rfl, rfl⟩, fun ys c k name hmem => ?_, fun ys ho so vo h s v hh hs hv => ?_⟩
  · simp only [List.mem_cons, Prod.mk.injEq, List.not_mem_nil, or_false] at hmem
    rcases hmem with ⟨rfl, rfl⟩ | ⟨rfl, rfl⟩ | ⟨rfl, rfl⟩ | ⟨rfl, rfl⟩ <;> exact ⟨rfl, rfl⟩
  · have hsat := hsvOperand_of_value hs
    have hval := hsvOperand_of_value hv
    refine ⟨?_, ?_, ?_, ?_, ?_, ?_⟩
    · exact congrArg _ (assembleHsv_eq_some hh hsat hval)
    · exact congrArg _ (assembleHsv_eq_some hh hsat (hsvOperand_none ys))
    · exact congrArg _ (assembleHsv_eq_some hh hsat (hsvOperand_dash ys))
    · exact congrArg _ (assembleHsv_eq_some hh (hsvOperand_dash ys) hval)
    · exact congrArg _ (assembleHsv_eq_some hh (hsvOperand_none ys) (hsvOperand_none ys))
    · exact congrArg _ (assembleHsv_eq_some hh (hsvOperand_dash ys) (hsvOperand_dash ys))

end Sys2Proof.Machine
end

section
/-! PROOFS. Colour math (41_color_math.md): the lanes of the results of `HSV`, `FADE`, `BLEND` and `GRAD`, and with them the values,
the bounds and what each result depends on. -/

namespace Sys2Proof.Machine

/-! The statements' words for lanes, colours, clamps and blends are the model's -/

theorem lane_eq_ch (c : Word) (k : Nat) : lane c k = ch c k := (ch_eq_toNat_extractLsb' c k).symm

theorem colour3_eq_word_rgb (r g b : Nat) : colour3 r g b = word (rgb r g b : Nat) := by
  simp only [colour3, word_rgb_eq_append, BitVec.ofInt_natCast]

theorem clamped_eq_clampOperand (w : Word) : clamped w = clampOperand w := by
  unfold clamped clampOperand clamp255 sint
  split
  · omega
  · split <;> omega

theorem blended_eq_blendch (a b al : Nat) : blended a b al = blendch a b al := by
  rw [blended, blendch, Nat.shiftRight_eq_div_pow]

theorem scaleChannel_eq (a br : Nat) : scaleChannel a br = a * br / 256 := by
  rw [scaleChannel, Nat.shiftRight_eq_div_pow]

/-! Lanes -/

/-- Lane `k` of a packed colour is the low byte of the value packed into it (rule R80). -/
theorem ch_word_rgb_lane (f : Nat → Nat) {k : Nat} (hk : k < 3) :
    ch (word (rgb (f 2) (f 1) (f 0) : Nat)) k = f k % 256 := by
  obtain rfl | rfl | rfl : k = 0 ∨ k = 1 ∨ k = 2 := by omega
  · rw [ch_word_rgb_0, mask8_natCast]
  · rw [ch_word_rgb_1, mask8_natCast]
  · rw [ch_word_rgb_2, mask8_natCast]

theorem ch_blendColours (ca cb : Word) {al k : Nat} (hal : al ≤ 255) (hk : k < 3) :
    ch (blendColours ca cb al) k = blendch (ch ca k) (ch cb k) al := by
  have hle := blendch_le (ch ca k) (ch cb k) al (Nat.le_of_lt_succ (ch_lt ca k)) (Nat.le_of_lt_succ (ch_lt cb k)) hal
  rw [blendColours, ch_word_rgb_lane (fun k => blendch (ch ca k) (ch cb k) al) hk, Nat.mod_eq_of_lt (by omega)]

theorem mul_div_256_le {a br : Nat} (hbr : br ≤ 255) : a * br / 256 ≤ a := by
  have hmul : a * br ≤ a * 255 := Nat.mul_le_mul_left a hbr
  omega

/-- Off the fast path `FADE` scales red, green and blue (rule R93). -/
theorem ch_fadeColour (c : Word) {br k : Nat} (hbr : br < 255) (hk : k < 3) :
    ch (fadeColour c br) k = ch c k * br / 256 := by
  have hle := mul_div_256_le (a := ch c k) hbr.le
  have hlt := ch_lt c k
  rw [fadeColour, if_neg hbr.ne, ch_word_rgb_lane (fun k => scaleChannel (ch c k) br) hk, scaleChannel_eq,
    Nat.mod_eq_of_lt (by omega)]

theorem ch_fadeColour_three (c : Word) {br : Nat} (hbr : br < 255) : ch (fadeColour c br) 3 = 0 := by
  rw [fadeColour, if_neg hbr.ne, ch_word_rgb_3]

theorem fadeColour_255 (c : Word) : fadeColour c 255 = c := if_pos rfl

/-- A fade never brightens a channel (rule R93). -/
theorem ch_fadeColour_le (c : Word) {br k : Nat} (hbr : br ≤ 255) (hk : k < 4) : ch (fadeColour c br) k ≤ ch c k := by
  rcases Nat.lt_or_eq_of_le hbr with hlt | rfl
  · rcases Nat.lt_or_eq_of_le (Nat.le_of_lt_succ hk) with hk3 | rfl
    · rw [ch_fadeColour c hlt hk3]
      exact mul_div_256_le hbr
    · rw [ch_fadeColour_three c hlt]
      exact Nat.zero_le _
  · rw [fadeColour_255]

/-- A greater brightness never gives a darker channel (rule R93). -/
theorem ch_fadeColour_mono (c : Word) {br br' k : Nat} (hle : br ≤ br') (hbr' : br' ≤ 255) (hk : k < 4) :
    ch (fadeColour c br) k ≤ ch (fadeColour c br') k := by
  rcases Nat.lt_or_eq_of_le hbr' with hlt' | rfl
  · have hlt : br < 255 := by omega
    rcases Nat.lt_or_eq_of_le (Nat.le_of_lt_succ hk) with hk3 | rfl
    · rw [ch_fadeColour c hlt hk3, ch_fadeColour c hlt' hk3]
      exact Nat.div_le_div_right (Nat.mul_le_mul_left _ hle)
    · rw [ch_fadeColour_three c hlt, ch_fadeColour_three c hlt']
  · rw [fadeColour_255]
    exact ch_fadeColour_le c hle hk

theorem clampOperand_mono {w w' : Word} (h : w.toInt ≤ w'.toInt) : clampOperand w ≤ clampOperand w' := by
  unfold clampOperand clamp255 sint
  omega

/-! The blend of a channel -/

/-- A channel blended with itself loses 1, unless it is 0 (rule R94). -/
theorem blendch_self {a : Nat} (ha : a ≤ 255) {al : Nat} (hal : al ≤ 255) : blendch a a al = a - 1 := by
  have hsum : a * (255 - al) + a * al = a * 255 := by rw [← Nat.mul_add, Nat.sub_add_cancel hal]
  rw [← blended_eq_blendch, blended, hsum]
  omega

theorem blendch_zero {a : Nat} (ha : a ≤ 255) (b : Nat) : blendch a b 0 = a - 1 := by
  rw [← blended_eq_blendch, blended]
  omega

theorem blendch_255 (a : Nat) {b : Nat} (hb : b ≤ 255) : blendch a b 255 = b - 1 := by
  rw [← blended_eq_blendch, blended]
  omega

/-! `HSV` -/

/-- A ramp of at most 63 adds at most the amplitude to the floor (90_conflicts.md C3). -/
theorem scaleRamp_le {ramp : Nat} (h : ramp ≤ 63) (amp floor : Nat) : scaleRamp ramp amp floor ≤ amp + floor := by
  have hmul : ramp * amp ≤ 63 * amp := Nat.mul_le_mul_right amp h
  unfold scaleRamp
  omega

theorem le_scaleRamp (ramp amp floor : Nat) : floor ≤ scaleRamp ramp amp floor := Nat.le_add_left ..

theorem brightnessFloor_le (sat val : Nat) : brightnessFloor sat val ≤ val := by
  have hmul : val * (255 - sat) ≤ val * 255 := Nat.mul_le_mul_left val (Nat.sub_le ..)
  unfold brightnessFloor
  omega

theorem colorAmplitude_add_floor (sat val : Nat) : colorAmplitude sat val + brightnessFloor sat val = val :=
  Nat.sub_add_cancel (brightnessFloor_le sat val)

/-- The ramp that rises in a section (rule R91). -/
def rampUp (h0 sat val : Nat) : Nat :=
  scaleRamp (rescaleHue h0 % 64) (colorAmplitude sat val) (brightnessFloor sat val)

/-- The ramp that falls in a section (rule R91). -/
def rampDown (h0 sat val : Nat) : Nat :=
  scaleRamp (63 - rescaleHue h0 % 64) (colorAmplitude sat val) (brightnessFloor sat val)

/-- The three sections are told by the wrapped hue itself (rule R91). -/
theorem rescaleHue_section {h0 : Nat} (h : h0 < 255) :
    rescaleHue h0 / 64 = if h0 ≤ 84 then 0 else if h0 ≤ 169 then 1 else 2 := by
  unfold rescaleHue
  split
  · omega
  · split <;> omega

theorem rainbow_eq {h0 : Nat} (h : h0 < 255) (sat val : Nat) :
    rainbow h0 sat val =
      if h0 ≤ 84 then colour3 (rampDown h0 sat val) (rampUp h0 sat val) (brightnessFloor sat val)
      else if h0 ≤ 169 then colour3 (brightnessFloor sat val) (rampDown h0 sat val) (rampUp h0 sat val)
      else colour3 (rampUp h0 sat val) (brightnessFloor sat val) (rampDown h0 sat val) := by
  simp only [rainbow, rescaleHue_section h, colour3_eq_word_rgb]
  by_cases h84 : h0 ≤ 84
  · simp only [if_pos h84]
    rfl
  · by_cases h169 : h0 ≤ 169
    · simp only [if_neg h84, if_pos h169]
      rfl
    · simp only [if_neg h84, if_neg h169]
      rfl

theorem floor_le_ramps (h0 sat val : Nat) :
    brightnessFloor sat val ≤ rampUp h0 sat val ∧ brightnessFloor sat val ≤ rampDown h0 sat val :=
  ⟨le_scaleRamp .., le_scaleRamp ..⟩

theorem ramps_le (h0 sat val : Nat) : rampUp h0 sat val ≤ val ∧ rampDown h0 sat val ≤ val := by
  have hsum := colorAmplitude_add_floor sat val
  exact ⟨(scaleRamp_le (by omega) ..).trans hsum.le, (scaleRamp_le (by omega) ..).trans hsum.le⟩

theorem lane_colour3 {r g b : Nat} (hr : r ≤ 255) (hg : g ≤ 255) (hb : b ≤ 255) :
    lane (colour3 r g b) 0 = b ∧ lane (colour3 r g b) 1 = g ∧ lane (colour3 r g b) 2 = r ∧ lane (colour3 r g b) 3 = 0 := by
  simp only [lane_eq_ch, colour3_eq_word_rgb, ch_word_rgb_0, ch_word_rgb_1, ch_word_rgb_2, ch_word_rgb_3,
    mask8_natCast_of_le hr, mask8_natCast_of_le hg, mask8_natCast_of_le hb, and_self]

/-- The lanes of a colour that holds the floor, in one of its lanes, and two values between the floor and the value. -/
theorem lanes_between {r g b floor v : Nat} (hv : v ≤ 255) (hr : floor ≤ r ∧ r ≤ v) (hg : floor ≤ g ∧ g ≤ v)
    (hb : floor ≤ b ∧ b ≤ v) (hfloor : r = floor ∨ g = floor ∨ b = floor) :
    lane (colour3 r g b) 3 = 0 ∧
    (∀ k, k < 3 → floor ≤ lane (colour3 r g b) k ∧ lane (colour3 r g b) k ≤ v) ∧
    (∃ k, k < 3 ∧ lane (colour3 r g b) k = floor) ∧
    (floor = v → colour3 r g b = colour3 v v v) := by
  obtain ⟨h0, h1, h2, h3⟩ := lane_colour3 (r := r) (g := g) (b := b) (by omega) (by omega) (by omega)
  refine ⟨h3, fun k hk => ?_, ?_, ?_⟩
  · obtain rfl | rfl | rfl : k = 0 ∨ k = 1 ∨ k = 2 := by omega
    · rwa [h0]
    · rwa [h1]
    · rwa [h2]
  · rcases hfloor with rfl | rfl | rfl
    · exact ⟨2, by decide, h2⟩
    · exact ⟨1, by decide, h1⟩
    · exact ⟨0, by decide, h0⟩
  · rintro rfl
    rw [hr.2.antisymm hr.1, hg.2.antisymm hg.1, hb.2.antisymm hb.1]

/-- What rule R92 derives of the conversion. -/
theorem rainbow_lanes {h0 sat val : Nat} (h : h0 < 255) (hval : val ≤ 255) :
    lane (rainbow h0 sat val) 3 = 0 ∧
    (∀ k, k < 3 → brightnessFloor sat val ≤ lane (rainbow h0 sat val) k ∧ lane (rainbow h0 sat val) k ≤ val) ∧
    (∃ k, k < 3 ∧ lane (rainbow h0 sat val) k = brightnessFloor sat val) ∧
    (brightnessFloor sat val = val → rainbow h0 sat val = colour3 val val val) := by
  have hfloor : brightnessFloor sat val ≤ brightnessFloor sat val ∧ brightnessFloor sat val ≤ val :=
    ⟨le_refl _, brightnessFloor_le sat val⟩
  have hup : brightnessFloor sat val ≤ rampUp h0 sat val ∧ rampUp h0 sat val ≤ val :=
    ⟨(floor_le_ramps h0 sat val).1, (ramps_le h0 sat val).1⟩
  have hdown : brightnessFloor sat val ≤ rampDown h0 sat val ∧ rampDown h0 sat val ≤ val :=
    ⟨(floor_le_ramps h0 sat val).2, (ramps_le h0 sat val).2⟩
  rw [rainbow_eq h]
  split
  · exact lanes_between hval hdown hup hfloor (.inr (.inr rfl))
  · split
    · exact lanes_between hval hfloor hdown hup (.inl rfl)
    · exact lanes_between hval hup hfloor hdown (.inr (.inl rfl))

theorem brightnessFloor_zero_sat (val : Nat) : brightnessFloor 0 val = val := by
  unfold brightnessFloor
  omega

theorem defaultedOperand_eq (useDefault : Bool) (w : Word) :
    defaultedOperand useDefault w = if useDefault then 255 else w.toNat % 256 := by
  rw [defaultedOperand, low8_eq]

theorem defaultedOperand_congr {useDefault : Bool} {w w' : Word}
    (h : useDefault = true ∨ w.toNat % 256 = w'.toNat % 256) :
    defaultedOperand useDefault w = defaultedOperand useDefault w' := by
  rw [defaultedOperand_eq, defaultedOperand_eq]
  rcases h with rfl | h
  · rfl
  · rw [h]

theorem wrapHue_congr {hue hue' : Word} (h : hue.toInt % 255 = hue'.toInt % 255) :
    wrapHue (sint hue) = wrapHue (sint hue') := by
  rw [wrapHue_eq_emod, wrapHue_eq_emod]
  exact congrArg Int.toNat h

theorem hsv_answersWith (sd vd : Bool) (hue sat val : Word) (s : State) :
    AnswersWith (.hsv sd vd hue sat val) s
      (rainbow (wrapHue (sint hue)) (defaultedOperand sd sat) (defaultedOperand vd val)) false := rfl

/-! `GRAD` -/

theorem gradSample_start (start stop : Word) {n : Int} (hn : 2 ≤ n) : gradSample start stop n 0 = .done start := by
  rw [gradSample, if_pos ((inRange_iff 0 n).2 (by omega)), if_pos rfl]

theorem gradSample_stop (start stop : Word) {n : Int} (hn : 2 ≤ n) : gradSample start stop n (n - 1) = .done stop := by
  rw [gradSample, if_pos ((inRange_iff (n - 1) n).2 (by omega)), if_neg (by omega), if_pos rfl]

theorem gradSample_interior (start stop : Word) {n i : Int} (h0 : 0 < i) (h1 : i < n - 1) :
    gradSample start stop n i = .done (blendColours start stop (gradAlpha i.toNat n.toNat)) := by
  rw [gradSample, if_pos ((inRange_iff i n).2 (by omega)), if_neg (by omega), if_neg (by omega)]

/-- Every index is out of range, an end or interior (rule R96). -/
theorem grad_index_cases (n i : Int) :
    ¬ (0 ≤ i ∧ i < n) ∨ i = 0 ∨ i = n - 1 ∨ (0 < i ∧ i < n - 1) := by omega

theorem gradAlpha_le {i n : Nat} (h : i < n) : gradAlpha i n ≤ 254 := by
  have hlt : 255 * i / n < 255 := Nat.div_lt_of_lt_mul (by omega)
  unfold gradAlpha
  omega

theorem gradAlpha_cast {i n : Int} (hi : 0 ≤ i) (hn : 0 ≤ n) : (gradAlpha i.toNat n.toNat : Int) = 255 * i / n := by
  lift i to Nat using hi
  lift n to Nat using hn
  simp [gradAlpha]

theorem grad_answersWith {start stop steps index : Word} {s : State} {r : Response}
    (hr : gradSample start stop (stepsOperand steps) (sint index) = r) :
    AnswersWith (.grad start stop steps index) s r.y r.oob :=
  hr ▸ answersWith_of_exec_respond rfl (gradSample_legal ..)

/-- A lane of a gradient's colour is told by the same lane of its two ends (rule R100). -/
theorem ch_gradSample_congr {start start' stop stop' : Word} {n i : Int} {k : Nat} (hk : k < 3) (hn : 2 ≤ n)
    (hstart : ch start k = ch start' k) (hstop : ch stop k = ch stop' k) :
    ch (gradSample start stop n i).y k = ch (gradSample start' stop' n i).y k := by
  rcases grad_index_cases n i with hout | rfl | rfl | ⟨h0, h1⟩
  · rw [gradSample_outOfRange hout, gradSample_outOfRange hout]
  · rw [gradSample_start _ _ hn, gradSample_start _ _ hn]
    exact hstart
  · rw [gradSample_stop _ _ hn, gradSample_stop _ _ hn]
    exact hstop
  · have hal : gradAlpha i.toNat n.toNat ≤ 255 := (gradAlpha_le (by omega)).trans (by decide)
    rw [gradSample_interior _ _ h0 h1, gradSample_interior _ _ h0 h1, Response.done_y, Response.done_y,
      ch_blendColours _ _ hal hk, ch_blendColours _ _ hal hk, hstart, hstop]

theorem gradSample_oob_congr (start start' stop stop' : Word) (n i : Int) :
    (gradSample start stop n i).oob = (gradSample start' stop' n i).oob := by
  rw [Bool.eq_iff_iff, gradSample_oob_iff, gradSample_oob_iff]

theorem ch_fadeColour_congr {c c' : Word} {br k : Nat} (hbr : br ≤ 255) (hk : k < 3) (h : ch c k = ch c' k) :
    ch (fadeColour c br) k = ch (fadeColour c' br) k := by
  rcases Nat.lt_or_eq_of_le hbr with hlt | rfl
  · rw [ch_fadeColour c hlt hk, ch_fadeColour c' hlt hk, h]
  · rw [fadeColour_255, fadeColour_255, h]

theorem blendColours_eq_colour3 (ca cb : Word) (al : Nat) :
    blendColours ca cb al = colour3 (blended (lane ca 2) (lane cb 2) al) (blended (lane ca 1) (lane cb 1) al)
      (blended (lane ca 0) (lane cb 0) al) := by
  simp only [colour3_eq_word_rgb, lane_eq_ch, blended_eq_blendch]
  rfl

theorem fadeColour_eq_colour3 (c : Word) {br : Nat} (hbr : br < 255) :
    fadeColour c br = colour3 (lane c 2 * br / 256) (lane c 1 * br / 256) (lane c 0 * br / 256) := by
  simp only [fadeColour, if_neg hbr.ne, scaleChannel_eq, colour3_eq_word_rgb, lane_eq_ch]

theorem fadeColour_zero (c : Word) : fadeColour c 0 = 0#32 := by
  rw [fadeColour_eq_colour3 c (by decide)]
  simp only [Nat.mul_zero, Nat.zero_div]
  rfl

theorem fade_answersWith {c b : Word} {br : Nat} (s : State) (hbr : clampOperand b = br) :
    AnswersWith (.fade c b) s (fadeColour c br) false := hbr ▸ rfl

theorem blend_answersWith {alpha : Word} {al : Nat} (ca cb : Word) (s : State) (hal : clampOperand alpha = al) :
    AnswersWith (.blend ca alpha cb) s (blendColours ca cb al) false := hal ▸ rfl

theorem stepsOperand_eq (w : Word) : stepsOperand w = if w.toInt < 2 then 2 else w.toInt := by
  unfold stepsOperand sint
  split <;> omega

theorem hsvWord_eq_hsvCommand (sd vd : Bool) : hsvWord sd vd = hsvCommand sd vd := by
  cases sd <;> cases vd <;> decide

theorem decode_hsv (sd vd : Bool) (a b c d : Word) :
    decode (reqBits (hsvWord sd vd) a b c d) =
      .ok (.hsv sd vd a (if sd then 0#32 else b) (if vd then 0#32 else c)) := by
  have hsel : selectedOp (hsvCommand sd vd) = some .hsv := Laws.RowSelected.hsv sd vd a b c
  rw [hsvWord_eq_hsvCommand, decode_reqBits hsel]
  simp only [withOperands, sdBit_hsvCommand, vdBit_hsvCommand]

/-! A word and its bytes -/

theorem extractLsb'_zero_append (x : Byte) : (0#24 ++ x : Word).extractLsb' 0 8 = x :=
  BitVec.extractLsb'_append_eq_right

theorem append_four_bytes (c : Word) :
    c.extractLsb' 24 8 ++ c.extractLsb' 16 8 ++ c.extractLsb' 8 8 ++ c.extractLsb' 0 8 = c := by
  simpa only [pixelBytes, colourOfBytes_four, chByte_eq_extractLsb', keptColour] using colourOfBytes_pixelBytes .argb c

theorem append_low_bytes (c : Word) :
    0#8 ++ c.extractLsb' 16 8 ++ c.extractLsb' 8 8 ++ c.extractLsb' 0 8 = c &&& 0x00FFFFFF#32 := by
  simpa only [pixelBytes, colourOfBytes_three, chByte_eq_extractLsb', keptColour] using colourOfBytes_pixelBytes .rgb c

/-! The obligations -/

/-- Settles O4: the packs put the bytes side by side again. -/
theorem unpackThenPackRestoresColour : Obligations.UnpackThenPackRestoresColour := by
  intro c s
  refine ⟨0#24 ++ c.extractLsb' 24 8, 0#24 ++ c.extractLsb' 16 8, 0#24 ++ c.extractLsb' 8 8, 0#24 ++ c.extractLsb' 0 8,
    answersWith_of_exec_unpackChannel (k := 3) rfl, answersWith_of_exec_unpackChannel (k := 2) rfl,
    answersWith_of_exec_unpackChannel (k := 1) rfl, answersWith_of_exec_unpackChannel (k := 0) rfl, ?_, ?_⟩
  · have hpack := packargb_answersWith (0#24 ++ c.extractLsb' 24 8) (0#24 ++ c.extractLsb' 16 8)
      (0#24 ++ c.extractLsb' 8 8) (0#24 ++ c.extractLsb' 0 8) s
    simpa only [extractLsb'_zero_append, append_four_bytes] using hpack
  · have hpack := packrgb_answersWith (0#24 ++ c.extractLsb' 16 8) (0#24 ++ c.extractLsb' 8 8)
      (0#24 ++ c.extractLsb' 0 8) s
    simpa only [extractLsb'_zero_append, append_low_bytes] using hpack

/-- Settles O5: the scaled hue tells the section, and the ramps are those of the rule. -/
theorem hsvConvertsInThreeSections : Obligations.HsvConvertsInThreeSections := by
  refine ⟨decode_hsv, ?_⟩
  rintro sd vd hue sat val s _ _ _ _ _ _ _ _ rfl rfl rfl rfl rfl rfl rfl rfl
  have hanswer := hsv_answersWith sd vd hue sat val s
  rwa [rainbow_eq (wrapHue_lt _), wrapHue_eq_emod, defaultedOperand_eq, defaultedOperand_eq] at hanswer

/-- Settles O6: the ramps lie between the floor and the value, and the third lane is the floor. -/
theorem hsvChannelsBetweenFloorAndValue : Obligations.HsvChannelsBetweenFloorAndValue := by
  intro sd vd hue sat val s
  obtain ⟨htop, hbetween, hfloor, hgrey⟩ := rainbow_lanes (sat := defaultedOperand sd sat) (wrapHue_lt (sint hue))
    (defaultedOperand_le vd val)
  refine ⟨_, hsv_answersWith sd vd hue sat val s, htop, _, _, _, defaultedOperand_eq sd sat, defaultedOperand_eq vd val,
    rfl, hbetween, hfloor, fun hsat => ?_, fun hval => ?_⟩
  · exact hgrey (hsat ▸ brightnessFloor_zero_sat _)
  · have hblack := hgrey (by simp [brightnessFloor, hval])
    rw [hblack, hval]
    rfl

/-- Settles O7: the conversion reads the wrapped hue and the low bytes. -/
theorem hsvReadsHueModulo255AndLowBytes : Obligations.HsvReadsHueModulo255AndLowBytes := by
  intro sd vd hue hue' sat sat' val val' s hhue hsat hval
  have hresp : hsvResponse sd vd hue sat val = hsvResponse sd vd hue' sat' val' := by
    rw [hsvResponse, hsvResponse, wrapHue_congr hhue, defaultedOperand_congr hsat, defaultedOperand_congr hval]
  exact congrArg (fun r => Host.Outcome.next (s.respond r)) hresp

/-- Settles O8: the clamp decides between the fast path, black and the scaled channels. -/
theorem fadeScalesChannels : Obligations.FadeScalesChannels := by
  intro a b c d s
  refine ⟨decode_reqBits (Laws.RowSelected.fade a b) a b c d, fun hge => ?_, fun hle => ?_, fun br hlt hbr => ?_⟩
  · have hclamp : clampOperand b = 255 := clamp255_of_ge hge
    exact fadeColour_255 a ▸ fade_answersWith s hclamp
  · have hclamp : clampOperand b = 0 := clamp255_of_nonpos hle
    exact fadeColour_zero a ▸ fade_answersWith s hclamp
  · have hclamp : clampOperand b = br := by
      unfold clampOperand clamp255 sint
      omega
    exact fadeColour_eq_colour3 a hlt ▸ fade_answersWith s hclamp

/-- Settles O9: the clamp and each scaled channel rise with the brightness, up to the channel itself. -/
theorem fadeIsMonotoneAndNeverBrightens : Obligations.FadeIsMonotoneAndNeverBrightens := by
  intro c b b' s hle
  refine ⟨_, _, fade_answersWith s rfl, fade_answersWith s rfl, fun k hk => ?_⟩
  rw [lane_eq_ch, lane_eq_ch, lane_eq_ch]
  exact ⟨ch_fadeColour_mono c (clampOperand_mono hle) (clampOperand_le b') hk, ch_fadeColour_le c (clampOperand_le b') hk⟩

/-- Settles O10: the blend is the formula of rule R94 on each lane. -/
theorem blendInterpolatesChannels : Obligations.BlendInterpolatesChannels := by
  intro a b c d s
  refine ⟨decode_reqBits (Laws.RowSelected.blend a b c) a b c d, ?_⟩
  rw [← blendColours_eq_colour3, clamped_eq_clampOperand]
  exact blend_answersWith a c s rfl

/-- Settles O11: the two weights of the formula add up to 255, not 256. -/
theorem blendChannelNeverReaches255 : Obligations.BlendChannelNeverReaches255 := by
  intro ca alpha cb s
  refine ⟨_, blend_answersWith ca cb s rfl, fun k hk => ?_⟩
  have hal := clampOperand_le alpha
  have ha := Nat.le_of_lt_succ (ch_lt ca k)
  have hb := Nat.le_of_lt_succ (ch_lt cb k)
  rw [lane_eq_ch, lane_eq_ch, lane_eq_ch, clamped_eq_clampOperand, ch_blendColours ca cb hal hk]
  refine ⟨(blended_eq_blendch ..).symm, blendch_le _ _ _ ha hb hal, fun he => ?_, fun he => ?_, fun he => ?_⟩
  · rw [← he, blendch_self ha hal]
  · rw [he, blendch_zero ha]
  · rw [he, blendch_255 _ hb]

/-- Settles O12: an index is out of range, an end or interior. -/
theorem gradSamplesByIndex : Obligations.GradSamplesByIndex := by
  rintro a b c d s n i hn rfl
  obtain rfl : stepsOperand c = n := (stepsOperand_eq c).trans hn.symm
  have h2 := stepsOperand_ge c
  refine ⟨decode_reqBits (Laws.RowSelected.grad a b c d) a b c d, fun hout => ?_, fun (hi : sint d = 0) => ?_,
    fun (hi : sint d = stepsOperand c - 1) => ?_, fun h0 h1 al hal => ?_⟩
  · exact grad_answersWith (gradSample_outOfRange ((not_inRange_iff _ _).2 hout))
  · exact grad_answersWith (r := .done a) (hi ▸ gradSample_start a b h2)
  · exact grad_answersWith (r := .done b) (hi ▸ gradSample_stop a b h2)
  · have halpha : gradAlpha (sint d).toNat (stepsOperand c).toNat = al :=
      Int.ofNat_inj.1 ((gradAlpha_cast h0.le (by omega)).trans hal.symm)
    rw [← blendColours_eq_colour3, ← halpha]
    exact grad_answersWith (gradSample_interior a b h0 h1)

/-- Settles O13: the interior alpha is a quotient below 255, which the clamp keeps. -/
theorem gradInteriorIsBlend : Obligations.GradInteriorIsBlend := by
  intro start stop steps index alpha s n hn h0 h1 hal
  obtain rfl : stepsOperand steps = n := hn.symm
  have hcast := gradAlpha_cast (i := sint index) (n := stepsOperand steps) h0.le (by omega)
  have hle : gradAlpha (sint index).toNat (stepsOperand steps).toNat ≤ 254 := gradAlpha_le (by unfold sint; omega)
  have halpha : alpha.toInt = gradAlpha (sint index).toNat (stepsOperand steps).toNat := hal.trans hcast.symm
  have hclamp : clampOperand alpha = gradAlpha (sint index).toNat (stepsOperand steps).toNat := by
    unfold clampOperand clamp255
    rw [sint, halpha]
    omega
  refine ⟨?_, by omega, by omega⟩
  exact (grad_answersWith (gradSample_interior start stop h0 h1)).trans (blend_answersWith start stop s hclamp).symm

/-- Settles O14: each lane of a result is a function of that lane of the operands and of the scalars. -/
theorem lanesDoNotMix : Obligations.LanesDoNotMix := by
  intro ca ca' cb cb' w w' s k hk ha hb
  rw [lane_eq_ch, lane_eq_ch] at ha hb
  simp only [lane_eq_ch]
  refine ⟨⟨_, _, fade_answersWith s rfl, fade_answersWith s rfl, ?_⟩,
    ⟨_, _, blend_answersWith ca cb s rfl, blend_answersWith ca' cb' s rfl, ?_⟩,
    ⟨(gradSample ca cb (stepsOperand w) (sint w')).y, (gradSample ca' cb' (stepsOperand w) (sint w')).y, _,
      grad_answersWith rfl, ?_, ?_⟩⟩
  · exact ch_fadeColour_congr (clampOperand_le w) hk ha
  · rw [ch_blendColours _ _ (clampOperand_le w) hk, ch_blendColours _ _ (clampOperand_le w) hk, ha, hb]
  · rw [gradSample_oob_congr ca ca' cb cb']
    exact grad_answersWith rfl
  · exact ch_gradSample_congr hk (stepsOperand_ge w) ha hb

end Sys2Proof.Machine
end

section
/-! PROOFS. The gradient as a buffer (41_color_math.md rule R97): what the host's listing leaves in the store, index by index. -/

namespace Sys2Proof.Machine

/-! Indexes as words -/

theorem sint_word {j : Nat} (h : j < 2147483648) : sint (word j) = j := by
  rw [sint, word, BitVec.toInt_ofInt]
  exact Int.bmod_eq_of_le (by omega) (by omega)

theorem word_toNat_sint {index : Word} (h : 0 ≤ sint index) : word ((sint index).toNat : Int) = index := by
  rw [Int.toNat_of_nonneg h]
  exact BitVec.ofInt_toInt

theorem word_ne_word {j k : Nat} (hj : j < 2147483648) (hk : k < 2147483648) (hne : j ≠ k) : word j ≠ word k := by
  intro he
  have hsint := congrArg sint he
  rw [sint_word hj, sint_word hk] at hsint
  omega

theorem value_int {k : Nat} (h : k < 2147483648) (ys : List Word) : (AsmOperand.int k).value ys = some (word k) :=
  if_pos (by omega)

theorem value_hex (w : Word) (ys : List Word) : (AsmOperand.hex w).value ys = some w := rfl

/-- The newest result is the one with the number of results before it. -/
theorem value_result_newest {ys : List Word} {n : Nat} (hlen : ys.length = n) (y : Word) :
    (AsmOperand.result n).value (ys ++ [y]) = some y := by
  subst hlen
  exact List.getElem?_concat_length

/-! The listing -/

theorem assemble_grad_line (start stop steps : Word) {k : Nat} (h : k < 2147483648) (ys : List Word) :
    assemble ys ⟨.grad, [.hex start, .hex stop, .hex steps, .int k]⟩ = some (.grad start stop steps (word k)) := by
  simp only [assemble, AsmLine.expand, assembleExpanded, value_int h, value_hex, Option.bind_some, Option.map_some]

/-- A line that copies the newest result. -/
theorem assemble_stpx_line {k : Nat} (h : k < 2147483648) {ys : List Word} {n : Nat} (hlen : ys.length = n) (y : Word) :
    assemble (ys ++ [y]) ⟨.stpx, [.int k, .result n]⟩ = some (.stpx (word k) y) := by
  simp only [assemble, AsmLine.expand, assembleExpanded, value_int h, value_result_newest hlen, Option.bind_some,
    Option.map_some]

/-- A line whose instruction answers is one request of the listing, and its result is the next one to copy (rule R67). -/
theorem runListing_cons {line : AsmLine} {ys : List Word} {i : Instr} {s t : State} {r : Response}
    (hasm : assemble ys line = some i) (hexec : exec i s = .next (t.respond r)) (rest : List AsmLine) :
    runListing (line :: rest) ys s = runListing rest (ys ++ [r.y]) (t.respond r) := by
  rw [runListing, hasm]
  simp only
  rw [ask_eq_exec (assemble_wf hasm), hexec]
  rfl

section Gradient

variable (start stop steps : Word)

/-- The colour that the host copies for index `k`. -/
def gradientColour (k : Nat) : Word := (gradResponse start stop steps (word k)).y

/-- The store once the indexes below `k` are written. -/
def gradientStore (layout : Layout) (st : Store) : Nat → Store
  | 0 => st
  | k + 1 => stpxStore layout (gradientStore layout st k) (word k) (gradientColour start stop steps k)

theorem gradientStore_size (layout : Layout) (st : Store) (k : Nat) :
    (gradientStore start stop steps layout st k).size = st.size := by
  induction k with
  | zero => rfl
  | succ k ih => rw [gradientStore, stpxStore_size, ih]

theorem gradientStore_length (layout : Layout) (st : Store) (k : Nat) :
    (gradientStore start stop steps layout st k).length layout = st.length layout :=
  length_congr layout (gradientStore_size ..)

theorem gradientStore_wf {layout : Layout} {st : Store} (hwf : st.wf) (k : Nat) :
    (gradientStore start stop steps layout st k).wf := by
  induction k with
  | zero => exact hwf
  | succ k ih => exact stpxStore_wf ih ..

theorem byteAt_gradientStore_trailing {layout : Layout} {st : Store} {addr : Nat} (hwf : st.wf)
    (haddr : st.length layout * layout.stride ≤ addr) (k : Nat) :
    (gradientStore start stop steps layout st k).byteAt addr = st.byteAt addr := by
  induction k with
  | zero => rfl
  | succ k ih =>
    rw [gradientStore, byteAt_stpxStore_trailing (gradientStore_wf start stop steps hwf k), ih]
    rwa [gradientStore_length]

/-- Each pixel written keeps its colour while the later ones are written (rule R112). -/
theorem ldpxResponse_gradientStore {layout : Layout} {st : Store} {j k : Nat} (hwf : st.wf) (hjk : j < k)
    (hk : k ≤ st.length layout) (hbound : k ≤ 2147483648) :
    ldpxResponse layout (gradientStore start stop steps layout st k) (word j) =
      .done (keptColour layout (gradientColour start stop steps j)) := by
  induction k with
  | zero => omega
  | succ k ih =>
    have hwf' := gradientStore_wf start stop steps (layout := layout) hwf k
    rw [gradientStore]
    rcases Nat.lt_or_eq_of_le (Nat.le_of_lt_succ hjk) with hlt | rfl
    · rw [ldpxResponse_stpxStore_other hwf' (word_ne_word (by omega) (by omega) hlt.ne), ih hlt (by omega) (by omega)]
    · have hsint := sint_word (j := j) (by omega)
      rw [ldpxResponse_stpxStore_same hwf' (by omega)]
      rw [gradientStore_length]
      omega

/-- The two requests of index `k` write that pixel (rule R97). -/
theorem runListing_gradient_pair {s : State} {st : Store} (hs : s.px = some st) {k : Nat} (hk : k < 2147483648)
    {ys : List Word} (hlen : ys.length = 2 * k) (rest : List AsmLine) :
    runListing (⟨.grad, [.hex start, .hex stop, .hex steps, .int k]⟩ :: ⟨.stpx, [.int k, .result (2 * k)]⟩ :: rest) ys s =
      runListing rest (ys ++ [gradientColour start stop steps k] ++ [(stpxResponse s.layout st (word k)).y])
        { s with
          px := some (stpxStore s.layout st (word k) (gradientColour start stop steps k))
          responses := stpxResponse s.layout st (word k) :: gradResponse start stop steps (word k) :: s.responses } := by
  have hstpx := exec_stpx_attached (s := s.respond (gradResponse start stop steps (word k))) hs (word k)
    (gradientColour start stop steps k)
  exact (runListing_cons (assemble_grad_line start stop steps hk ys) rfl _).trans
    (runListing_cons (assemble_stpx_line hk hlen _) hstpx rest)

theorem gradientListing_succ_append (k : Nat) (rest : List AsmLine) :
    gradientListing start stop steps (k + 1) ++ rest = gradientListing start stop steps k ++
      ⟨.grad, [.hex start, .hex stop, .hex steps, .int k]⟩ :: ⟨.stpx, [.int k, .result (2 * k)]⟩ :: rest :=
  List.append_assoc ..

/-- The listing for the indexes below `k`, two requests each, leaves that store, and the rest of the listing goes on from it. -/
theorem runListing_gradient {s : State} {st : Store} (hs : s.px = some st) {k : Nat} (hbound : k ≤ 2147483648) :
    ∃ ys rs, ys.length = 2 * k ∧ ∀ rest,
      runListing (gradientListing start stop steps k ++ rest) [] s =
        runListing rest ys { s with px := some (gradientStore start stop steps s.layout st k), responses := rs } := by
  induction k with
  | zero =>
    refine ⟨[], s.responses, rfl, fun rest => ?_⟩
    exact congrArg (runListing rest []) (State.withStore_self hs).symm
  | succ k ih =>
    obtain ⟨ys, rs, hlen, hrun⟩ := ih (by omega)
    have hpair := runListing_gradient_pair start stop steps (k := k)
      (s := { s with px := some (gradientStore start stop steps s.layout st k), responses := rs }) rfl (by omega) hlen
    exact ⟨_, _, by simp [hlen]; omega, fun rest =>
      (congrArg (runListing · [] s) (gradientListing_succ_append start stop steps k rest)).trans
        ((hrun _).trans (hpair rest))⟩

end Gradient

/-! The obligation -/

/-- Settles O50, by induction on the indexes: each pair of requests writes one pixel and leaves the pixels before it. -/
theorem gradientFillsTheBuffer : Obligations.GradientFillsTheBuffer := by
  intro start stop steps n s st hs hwf hn hlen
  have hlen : st.length s.layout = n := hlen
  have hbound : n ≤ 2147483648 := by
    have := stepsOperand_lt steps
    unfold stepsOperand sint at this
    omega
  obtain ⟨ys, rs, -, hrun⟩ := runListing_gradient start stop steps hs hbound
  refine ⟨{ s with px := some (gradientStore start stop steps s.layout st n), responses := rs }, ?_, rfl, rfl, rfl, ?_,
    fun k hk => ?_, fun index h0 h1 => ?_⟩
  · simpa only [List.append_nil, runListing] using hrun []
  · exact congrArg some (gradientStore_size ..)
  · simpa [State.byteAt, hs] using byteAt_gradientStore_trailing start stop steps hwf (hlen ▸ hk) n
  · have hin : 0 ≤ sint index ∧ sint index < stepsOperand steps := ⟨h0, lt_of_lt_of_eq h1 hn⟩
    have hoob : (gradSample start stop (stepsOperand steps) (sint index)).oob = false :=
      Bool.eq_false_iff.2 fun hset => (gradSample_oob_iff ..).1 hset hin
    have hj : (sint index).toNat < n := by
      unfold sint
      omega
    have hread := ldpxResponse_gradientStore start stop steps hwf hj hlen.ge hbound
    rw [word_toNat_sint h0, gradientColour, word_toNat_sint h0] at hread
    refine ⟨(gradResponse start stop steps index).y, hoob ▸ grad_answersWith rfl, ?_⟩
    have hanswer := ldpx_answersWith
      (s := { s with px := some (gradientStore start stop steps s.layout st n), responses := rs }) rfl hread
    cases hl : s.layout <;> simpa only [hl, keptColour, Response.done_y, Response.done_oob] using hanswer

end Sys2Proof.Machine
end
